-- ==== Sys2Proof/Word.lean ====
section
/-! DEFINITION. The word types of the 6502Net core (spec/00_scope.md R8): a memory cell and the data registers are 8 bits, the
program counter is 16 bits. An address presented to the memory controller is a `Nat` (spec/20_memory.md R30: it is not
truncated to 16 bits before the bounds check). -/

namespace Sys2Proof

/-- A memory cell or a data register (R8, R14). -/
abbrev Byte := BitVec 8

/-- The program counter (R8, R15); `BitVec` arithmetic on it is modulo 0x10000, as R15 says. -/
abbrev Word16 := BitVec 16

end Sys2Proof
end

