-- ==== Sys2Proof/Config.lean ====
section
/-! DEFINITION. What is no part of the state (spec/10_state.md R25): the parameters every operation of the machine takes as its
argument (spec/00_scope.md R5 to R7), the values two of them have on this hardware, and the one value the spec leaves open
(spec/60_exceptions.md R139). The third value, the default table of `BASE_CYCLES`, and the three together, `Config.params`, stand in
Machine/Cycles.lean. -/

namespace Sys2Proof

/-- The parameters of the step function (R25). No operation changes them and no state holds them. -/
structure Params where
  /-- `CAPACITY`, the number of bytes the memory controller stores (R5, decision D1). -/
  capacity : Nat
  /-- `INTERRUPT_PERIOD`, what `CYC` starts at and what replenishment adds (R6, decision D2). -/
  interruptPeriod : Int
  /-- `BASE_CYCLES`, from an executable opcode byte to its base cycle cost (R7, decision D3); no other byte is ever asked for. -/
  baseCycles : Byte → Nat

/-- `CAPACITY` of this hardware (R5, decision D1; log 1). -/
def Config.capacity : Nat := 0x10000

/-- `INTERRUPT_PERIOD` of this hardware (R6, decision D2; log 2). -/
def Config.interruptPeriod : Int := 20

/-- FREE VALUE (R139, U1; log 7). When a data read faults after the resolver found an index wrap that is to be charged, the
spec leaves `CYC` unspecified between "unchanged" and "reduced by 1": true means the penalty had been debited. It has no body,
so nothing in Lean can tell which; the argument is `State.openCount`, which each use advances. -/
opaque Config.penaltyDebitedAtFault : Nat → Bool

end Sys2Proof
end

