-- ==== Sys2Proof/Syntax.lean ====
section
/-! DEFINITION. The instructions as syntax. An opcode byte is "a specific operation + addressing mode pairing" (spec/30_encoding.md
R48), so `Instr` has one constructor per mnemonic of spec/opcode_table.json, whose argument says which of the mnemonic's rows it
is: the table's 256 rows are exactly the 256 terms (constructor, operand form) that are well formed (log 18). Operand bytes are no
part of an `Instr`: the resolver reads them from memory while the instruction runs (R60, R64; log 19). -/

namespace Sys2Proof

/-- The closed enumeration of addressing-mode tags (spec/40_execution_cycle.md R64). No instruction uses `indirect` (R74). -/
inductive AddressingMode where
  | absolute | absoluteX | absoluteY | accumulator | immediate | implied | indexedIndirect | indirectIndexed | indirect
  | relative | zeroPage | zeroPageX | zeroPageY
deriving DecidableEq, Repr

/-- The eight operand forms of ADC, AND, ORA, EOR, CMP and LDA (R52). -/
inductive AluMode where
  | immediate | zeroPage | zeroPageX | absolute | absoluteX | absoluteY | indexedIndirect | indirectIndexed
deriving DecidableEq, Repr

/-- The five operand forms of ASL, LSR, ROL and ROR (R52, R87). -/
inductive ShiftMode where
  | accumulator | zeroPage | zeroPageX | absolute | absoluteX
deriving DecidableEq, Repr

/-- The four operand forms of DEC and INC (R52, R98, R99). -/
inductive CountMode where
  | zeroPage | zeroPageX | absolute | absoluteX
deriving DecidableEq, Repr

/-- The two operand forms of BIT (R52, R92). -/
inductive BitMode where
  | zeroPage | absolute
deriving DecidableEq, Repr

/-- The three operand forms of CPX and CPY (R52, R95, R96). -/
inductive IndexCompareMode where
  | immediate | zeroPage | absolute
deriving DecidableEq, Repr

/-- The five operand forms of LDX (R52, R117). -/
inductive LdxMode where
  | immediate | zeroPage | zeroPageY | absolute | absoluteY
deriving DecidableEq, Repr

/-- The five operand forms of LDY (R52, R118). -/
inductive LdyMode where
  | immediate | zeroPage | zeroPageX | absolute | absoluteX
deriving DecidableEq, Repr

/-- The three operand forms of STX (R52, R119). -/
inductive StxMode where
  | zeroPage | zeroPageY | absolute
deriving DecidableEq, Repr

/-- The three operand forms of STY (R52, R120). -/
inductive StyMode where
  | zeroPage | zeroPageX | absolute
deriving DecidableEq, Repr

/-- The instructions of spec/opcode_table.json, in the order of the spec's files 41 to 48. -/
inductive Instr where
  -- executable (R52)
  | adc (m : AluMode)
  | and (m : AluMode)
  | ora (m : AluMode)
  | eor (m : AluMode)
  | asl (m : ShiftMode)
  | lsr (m : ShiftMode)
  | rol (m : ShiftMode)
  | ror (m : ShiftMode)
  | bit (m : BitMode)
  | cmp (m : AluMode)
  | cpx (m : IndexCompareMode)
  | cpy (m : IndexCompareMode)
  | dec (m : CountMode)
  | inc (m : CountMode)
  | dex
  | dey
  | inx
  | iny
  | bcc
  | bcs
  | beq
  | bne
  | bmi
  | bpl
  | bvc
  | bvs
  | jmp
  | lda (m : AluMode)
  | ldx (m : LdxMode)
  | ldy (m : LdyMode)
  | stx (m : StxMode)
  | sty (m : StyMode)
  | clc
  | cld
  | cli
  | clv
  | sec
  | sed
  | sei
  -- recognised, not executed (R54)
  | brk
  | jsr
  | rts
  | rti
  | pha
  | pla
  | php
  | plp
  -- the 128 unsupported bytes (R55); `b` is the byte itself
  | unsupported (b : Byte)
deriving DecidableEq, Repr

/-- The operand bytes that follow the opcode byte in formats F1, F2 and F3 (spec/30_encoding.md R49). -/
inductive OperandBytes where
  | none
  | one (op8 : Byte)
  | two (lo hi : Byte)
deriving DecidableEq, Repr

end Sys2Proof
end

