-- ==== Sys2Proof/WellFormed.lean ====
section
/-! DEFINITION. Which terms of `Instr` are rows of the opcode table. The operand-form types already hold exactly the pairs of
spec/30_encoding.md R52, so the one check is that an `unsupported` byte is one of the 128 that R55 lists. -/

namespace Sys2Proof

/-- The 128 unsupported bytes, line by line as spec/30_encoding.md R55 prints them. -/
def unsupportedBytes : List Nat :=
  [0x02, 0x03, 0x04, 0x07, 0x0B, 0x0C, 0x0F, 0x12, 0x13, 0x14, 0x17, 0x1A, 0x1B, 0x1C, 0x1F, 0x22, 0x23, 0x27, 0x2B, 0x2F,
    0x32, 0x33, 0x34, 0x37, 0x3A, 0x3B, 0x3C, 0x3F]
  ++ [0x42, 0x43, 0x44, 0x47, 0x4B, 0x4F, 0x52, 0x53, 0x54, 0x57, 0x5A, 0x5B, 0x5C, 0x5F, 0x62, 0x63, 0x64, 0x67, 0x6B, 0x6C,
    0x6F, 0x72, 0x73, 0x74, 0x77, 0x7A, 0x7B, 0x7C, 0x7F]
  ++ [0x80, 0x81, 0x82, 0x83, 0x85, 0x87, 0x89, 0x8A, 0x8B, 0x8D, 0x8F, 0x91, 0x92, 0x93, 0x95, 0x97, 0x98, 0x99, 0x9A, 0x9B,
    0x9C, 0x9D, 0x9E, 0x9F]
  ++ [0xA3, 0xA7, 0xA8, 0xAA, 0xAB, 0xAF, 0xB2, 0xB3, 0xB7, 0xBA, 0xBB, 0xBF, 0xC2, 0xC3, 0xC7, 0xCB, 0xCF, 0xD2, 0xD3, 0xD4,
    0xD7, 0xDA, 0xDB, 0xDC, 0xDF]
  ++ [0xE1, 0xE2, 0xE3, 0xE5, 0xE7, 0xE9, 0xEA, 0xEB, 0xED, 0xEF, 0xF1, 0xF2, 0xF3, 0xF4, 0xF5, 0xF7, 0xF9, 0xFA, 0xFB, 0xFC,
    0xFD, 0xFF]

/-- A well-formed instruction is a row of the opcode table. -/
def Instr.wf : Instr → Bool
  | .unsupported b => unsupportedBytes.contains b.toNat
  | .adc _ | .and _ | .ora _ | .eor _ | .asl _ | .lsr _ | .rol _ | .ror _ | .bit _ | .cmp _ | .cpx _ | .cpy _ => true
  | .dec _ | .inc _ | .dex | .dey | .inx | .iny => true
  | .bcc | .bcs | .beq | .bne | .bmi | .bpl | .bvc | .bvs | .jmp => true
  | .lda _ | .ldx _ | .ldy _ | .stx _ | .sty _ | .clc | .cld | .cli | .clv | .sec | .sed | .sei => true
  | .brk | .jsr | .rts | .rti | .pha | .pla | .php | .plp => true

end Sys2Proof
end

