-- ==== Sys2Proof/Decode.lean ====
section
/-! DEFINITION. Decoding and encoding (spec/30_encoding.md). The decoder is transcribed from R52's map by byte value, the encoder
from R52's table by mnemonic and mode: two separate tables of the spec, which Laws/Decode.lean shows to agree. -/

namespace Sys2Proof

/-! ### Choice by operand form: one argument per column of R52's first table, in the table's order -/

def AluMode.pick {α : Type} (m : AluMode) (imm zp zpx abs absx absy indx indy : α) : α :=
  match m with
  | .immediate => imm | .zeroPage => zp | .zeroPageX => zpx | .absolute => abs | .absoluteX => absx | .absoluteY => absy
  | .indexedIndirect => indx | .indirectIndexed => indy

def ShiftMode.pick {α : Type} (m : ShiftMode) (acc zp zpx abs absx : α) : α :=
  match m with
  | .accumulator => acc | .zeroPage => zp | .zeroPageX => zpx | .absolute => abs | .absoluteX => absx

def CountMode.pick {α : Type} (m : CountMode) (zp zpx abs absx : α) : α :=
  match m with
  | .zeroPage => zp | .zeroPageX => zpx | .absolute => abs | .absoluteX => absx

def BitMode.pick {α : Type} (m : BitMode) (zp abs : α) : α :=
  match m with
  | .zeroPage => zp | .absolute => abs

def IndexCompareMode.pick {α : Type} (m : IndexCompareMode) (imm zp abs : α) : α :=
  match m with
  | .immediate => imm | .zeroPage => zp | .absolute => abs

def LdxMode.pick {α : Type} (m : LdxMode) (imm zp zpy abs absy : α) : α :=
  match m with
  | .immediate => imm | .zeroPage => zp | .zeroPageY => zpy | .absolute => abs | .absoluteY => absy

def LdyMode.pick {α : Type} (m : LdyMode) (imm zp zpx abs absx : α) : α :=
  match m with
  | .immediate => imm | .zeroPage => zp | .zeroPageX => zpx | .absolute => abs | .absoluteX => absx

def StxMode.pick {α : Type} (m : StxMode) (zp zpy abs : α) : α :=
  match m with
  | .zeroPage => zp | .zeroPageY => zpy | .absolute => abs

def StyMode.pick {α : Type} (m : StyMode) (zp zpx abs : α) : α :=
  match m with
  | .zeroPage => zp | .zeroPageX => zpx | .absolute => abs

/-! ### The addressing mode of an instruction (R52) -/

def AluMode.tag (m : AluMode) : AddressingMode :=
  m.pick .immediate .zeroPage .zeroPageX .absolute .absoluteX .absoluteY .indexedIndirect .indirectIndexed

def ShiftMode.tag (m : ShiftMode) : AddressingMode := m.pick .accumulator .zeroPage .zeroPageX .absolute .absoluteX

def CountMode.tag (m : CountMode) : AddressingMode := m.pick .zeroPage .zeroPageX .absolute .absoluteX

def BitMode.tag (m : BitMode) : AddressingMode := m.pick .zeroPage .absolute

def IndexCompareMode.tag (m : IndexCompareMode) : AddressingMode := m.pick .immediate .zeroPage .absolute

def LdxMode.tag (m : LdxMode) : AddressingMode := m.pick .immediate .zeroPage .zeroPageY .absolute .absoluteY

def LdyMode.tag (m : LdyMode) : AddressingMode := m.pick .immediate .zeroPage .zeroPageX .absolute .absoluteX

def StxMode.tag (m : StxMode) : AddressingMode := m.pick .zeroPage .zeroPageY .absolute

def StyMode.tag (m : StyMode) : AddressingMode := m.pick .zeroPage .zeroPageX .absolute

/-- The addressing mode of an executable instruction (R52); the bytes that only fault have none (R54, R55, R57). -/
def Instr.mode : Instr → Option AddressingMode
  | .adc m | .and m | .ora m | .eor m | .cmp m | .lda m => some m.tag
  | .asl m | .lsr m | .rol m | .ror m => some m.tag
  | .dec m | .inc m => some m.tag
  | .bit m => some m.tag
  | .cpx m | .cpy m => some m.tag
  | .ldx m => some m.tag
  | .ldy m => some m.tag
  | .stx m => some m.tag
  | .sty m => some m.tag
  | .dex | .dey | .inx | .iny => some .implied
  | .bcc | .bcs | .beq | .bne | .bmi | .bpl | .bvc | .bvs => some .relative
  | .jmp => some .absolute
  | .clc | .cld | .cli | .clv | .sec | .sed | .sei => some .implied
  | .brk | .jsr | .rts | .rti | .pha | .pla | .php | .plp => none
  | .unsupported _ => none

/-- The number of operand bytes of an addressing mode: formats F1, F2, F3 of R49 hold 0, 1, 2 (R51, decision D25; log 4). `indirect`
has no format and no user (R51, R74). -/
def AddressingMode.operandCount : AddressingMode → Nat
  | .implied | .accumulator => 0
  | .immediate | .zeroPage | .zeroPageX | .zeroPageY | .indexedIndirect | .indirectIndexed | .relative => 1
  | .absolute | .absoluteX | .absoluteY => 2
  | .indirect => 0

/-- The operand bytes that follow the opcode byte. A byte that only faults has none: it faults after the opcode byte (R57). -/
def Instr.operandCount (i : Instr) : Nat :=
  match i.mode with
  | some t => t.operandCount
  | none => 0

/-- The length in bytes, `len` of R51. -/
def Instr.length (i : Instr) : Nat := i.operandCount + 1

/-! ### The opcode byte -/

/-- Row `hi`x of R52's map by byte value; `none` is the map's `-`, an unsupported byte. -/
def opcodeRow : Nat → List (Option Instr)
  | 0 => [some .brk, some (.ora .indexedIndirect), none, none, none, some (.ora .zeroPage), some (.asl .zeroPage), none,
      some .php, some (.ora .immediate), some (.asl .accumulator), none, none, some (.ora .absolute), some (.asl .absolute), none]
  | 1 => [some .bpl, some (.ora .indirectIndexed), none, none, none, some (.ora .zeroPageX), some (.asl .zeroPageX), none,
      some .clc, some (.ora .absoluteY), none, none, none, some (.ora .absoluteX), some (.asl .absoluteX), none]
  | 2 => [some .jsr, some (.and .indexedIndirect), none, none, some (.bit .zeroPage), some (.and .zeroPage), some (.rol .zeroPage), none,
      some .plp, some (.and .immediate), some (.rol .accumulator), none, some (.bit .absolute), some (.and .absolute), some (.rol .absolute), none]
  | 3 => [some .bmi, some (.and .indirectIndexed), none, none, none, some (.and .zeroPageX), some (.rol .zeroPageX), none,
      some .sec, some (.and .absoluteY), none, none, none, some (.and .absoluteX), some (.rol .absoluteX), none]
  | 4 => [some .rti, some (.eor .indexedIndirect), none, none, none, some (.eor .zeroPage), some (.lsr .zeroPage), none,
      some .pha, some (.eor .immediate), some (.lsr .accumulator), none, some .jmp, some (.eor .absolute), some (.lsr .absolute), none]
  | 5 => [some .bvc, some (.eor .indirectIndexed), none, none, none, some (.eor .zeroPageX), some (.lsr .zeroPageX), none,
      some .cli, some (.eor .absoluteY), none, none, none, some (.eor .absoluteX), some (.lsr .absoluteX), none]
  | 6 => [some .rts, some (.adc .indexedIndirect), none, none, none, some (.adc .zeroPage), some (.ror .zeroPage), none,
      some .pla, some (.adc .immediate), some (.ror .accumulator), none, none, some (.adc .absolute), some (.ror .absolute), none]
  | 7 => [some .bvs, some (.adc .indirectIndexed), none, none, none, some (.adc .zeroPageX), some (.ror .zeroPageX), none,
      some .sei, some (.adc .absoluteY), none, none, none, some (.adc .absoluteX), some (.ror .absoluteX), none]
  | 8 => [none, none, none, none, some (.sty .zeroPage), none, some (.stx .zeroPage), none,
      some .dey, none, none, none, some (.sty .absolute), none, some (.stx .absolute), none]
  | 9 => [some .bcc, none, none, none, some (.sty .zeroPageX), none, some (.stx .zeroPageY), none,
      none, none, none, none, none, none, none, none]
  | 10 => [some (.ldy .immediate), some (.lda .indexedIndirect), some (.ldx .immediate), none, some (.ldy .zeroPage), some (.lda .zeroPage), some (.ldx .zeroPage), none,
      none, some (.lda .immediate), none, none, some (.ldy .absolute), some (.lda .absolute), some (.ldx .absolute), none]
  | 11 => [some .bcs, some (.lda .indirectIndexed), none, none, some (.ldy .zeroPageX), some (.lda .zeroPageX), some (.ldx .zeroPageY), none,
      some .clv, some (.lda .absoluteY), none, none, some (.ldy .absoluteX), some (.lda .absoluteX), some (.ldx .absoluteY), none]
  | 12 => [some (.cpy .immediate), some (.cmp .indexedIndirect), none, none, some (.cpy .zeroPage), some (.cmp .zeroPage), some (.dec .zeroPage), none,
      some .iny, some (.cmp .immediate), some .dex, none, some (.cpy .absolute), some (.cmp .absolute), some (.dec .absolute), none]
  | 13 => [some .bne, some (.cmp .indirectIndexed), none, none, none, some (.cmp .zeroPageX), some (.dec .zeroPageX), none,
      some .cld, some (.cmp .absoluteY), none, none, none, some (.cmp .absoluteX), some (.dec .absoluteX), none]
  | 14 => [some (.cpx .immediate), none, none, none, some (.cpx .zeroPage), none, some (.inc .zeroPage), none,
      some .inx, none, none, none, some (.cpx .absolute), none, some (.inc .absolute), none]
  | 15 => [some .beq, none, none, none, none, none, some (.inc .zeroPageX), none,
      some .sed, none, none, none, none, none, some (.inc .absoluteX), none]
  | _ => []

/-- The instruction an opcode byte selects: total, and a function of the byte alone (R52, R54, R55, R61). -/
def decodeOpcode (b : Byte) : Instr :=
  match (opcodeRow (b.toNat / 16))[b.toNat % 16]? with
  | some (some i) => i
  | _ => .unsupported b

/-- The opcode byte of an instruction (R52's table by mnemonic and mode; R54; R55). -/
def Instr.opcode : Instr → Byte
  | .adc m => m.pick 0x69 0x65 0x75 0x6D 0x7D 0x79 0x61 0x71
  | .and m => m.pick 0x29 0x25 0x35 0x2D 0x3D 0x39 0x21 0x31
  | .ora m => m.pick 0x09 0x05 0x15 0x0D 0x1D 0x19 0x01 0x11
  | .eor m => m.pick 0x49 0x45 0x55 0x4D 0x5D 0x59 0x41 0x51
  | .asl m => m.pick 0x0A 0x06 0x16 0x0E 0x1E
  | .lsr m => m.pick 0x4A 0x46 0x56 0x4E 0x5E
  | .rol m => m.pick 0x2A 0x26 0x36 0x2E 0x3E
  | .ror m => m.pick 0x6A 0x66 0x76 0x6E 0x7E
  | .bit m => m.pick 0x24 0x2C
  | .cmp m => m.pick 0xC9 0xC5 0xD5 0xCD 0xDD 0xD9 0xC1 0xD1
  | .cpx m => m.pick 0xE0 0xE4 0xEC
  | .cpy m => m.pick 0xC0 0xC4 0xCC
  | .dec m => m.pick 0xC6 0xD6 0xCE 0xDE
  | .inc m => m.pick 0xE6 0xF6 0xEE 0xFE
  | .dex => 0xCA
  | .dey => 0x88
  | .inx => 0xE8
  | .iny => 0xC8
  | .bcc => 0x90
  | .bcs => 0xB0
  | .beq => 0xF0
  | .bne => 0xD0
  | .bmi => 0x30
  | .bpl => 0x10
  | .bvc => 0x50
  | .bvs => 0x70
  | .jmp => 0x4C
  | .lda m => m.pick 0xA9 0xA5 0xB5 0xAD 0xBD 0xB9 0xA1 0xB1
  | .ldx m => m.pick 0xA2 0xA6 0xB6 0xAE 0xBE
  | .ldy m => m.pick 0xA0 0xA4 0xB4 0xAC 0xBC
  | .stx m => m.pick 0x86 0x96 0x8E
  | .sty m => m.pick 0x84 0x94 0x8C
  | .clc => 0x18
  | .cld => 0xD8
  | .cli => 0x58
  | .clv => 0xB8
  | .sec => 0x38
  | .sed => 0xF8
  | .sei => 0x78
  | .brk => 0x00
  | .jsr => 0x20
  | .rts => 0x60
  | .rti => 0x40
  | .pha => 0x48
  | .pla => 0x68
  | .php => 0x08
  | .plp => 0x28
  | .unsupported b => b

/-! ### Whole instructions: the opcode byte and its operand bytes (R48, R49) -/

/-- Why a byte sequence is not an instruction. Every opcode byte decodes (R56), so only missing bytes refuse. -/
inductive DecodeError where
  /-- There is no opcode byte. -/
  | noOpcode
  /-- The sequence ends inside the operand bytes of `i`. -/
  | operandMissing (i : Instr)
deriving DecidableEq, Repr

/-- An instruction with its operand bytes, and the bytes that follow it. -/
structure Decoded where
  instr : Instr
  operand : OperandBytes
  rest : List Byte
deriving DecidableEq, Repr

/-- Decoding the bytes at increasing addresses: the opcode byte, then as many operand bytes as its mode has, the low byte of an
address first (R48, R49, R51, R57). -/
def decode : List Byte → Except DecodeError Decoded
  | [] => .error .noOpcode
  | op :: tail =>
    match (decodeOpcode op).operandCount, tail with
    | 0, rest => .ok ⟨decodeOpcode op, .none, rest⟩
    | 1, b :: rest => .ok ⟨decodeOpcode op, .one b, rest⟩
    | 2, lo :: hi :: rest => .ok ⟨decodeOpcode op, .two lo hi, rest⟩
    | _, _ => .error (.operandMissing (decodeOpcode op))

/-- The bytes of the operand, the low byte of an address first (R49). -/
def OperandBytes.bytes : OperandBytes → List Byte
  | .none => []
  | .one op8 => [op8]
  | .two lo hi => [lo, hi]

/-- The operand has as many bytes as the instruction's format (R51); any value of each byte is legal (R56). -/
def OperandBytes.fits (o : OperandBytes) (i : Instr) : Bool := o.bytes.length == i.operandCount

/-- The bytes of an instruction in memory at increasing addresses (R48, R49). -/
def encode (i : Instr) (o : OperandBytes) : List Byte := i.opcode :: o.bytes

/-- Two bytes as a 16-bit value, `hi * 256 + lo` (R37, R50). -/
def littleEndian (lo hi : Byte) : Nat := hi.toNat * 256 + lo.toNat

/-- The displacement of an offset byte: sign and magnitude, not two's complement (R50, R104; log 17). -/
def branchDisplacement (off : Byte) : Int :=
  if 127 < off.toNat then -((off &&& 0x7F).toNat : Int) else (off.toNat : Int)

/-- The three bytes at increasing addresses of the little-endian number `hi:lo:opcode` (R49) whose low `nbits` bits are `w`'s and
whose other bits are 0. -/
def tableWordBytes (nbits w : Nat) : List Byte :=
  let v := w % 2 ^ nbits
  [BitVec.ofNat 8 v, BitVec.ofNat 8 (v / 0x100), BitVec.ofNat 8 (v / 0x10000)]

/-- The instruction the decoder reads from a word numbered as spec/opcode_table.json numbers it. -/
def decodeTableWord (nbits w : Nat) : Option Instr :=
  match decode (tableWordBytes nbits w) with
  | .ok d => some d.instr
  | .error _ => none

/-! ### The opcode-to-mnemonic mapping (R59; spec/00_scope.md R4 keeps the mapping and leaves the lookup interface out) -/

/-- The mnemonic of an instruction, as spec/opcode_table.json spells it. -/
def Instr.mnemonic : Instr → String
  | .adc _ => "ADC" | .and _ => "AND" | .ora _ => "ORA" | .eor _ => "EOR"
  | .asl _ => "ASL" | .lsr _ => "LSR" | .rol _ => "ROL" | .ror _ => "ROR"
  | .bit _ => "BIT" | .cmp _ => "CMP" | .cpx _ => "CPX" | .cpy _ => "CPY"
  | .dec _ => "DEC" | .inc _ => "INC" | .dex => "DEX" | .dey => "DEY" | .inx => "INX" | .iny => "INY"
  | .bcc => "BCC" | .bcs => "BCS" | .beq => "BEQ" | .bne => "BNE"
  | .bmi => "BMI" | .bpl => "BPL" | .bvc => "BVC" | .bvs => "BVS" | .jmp => "JMP"
  | .lda _ => "LDA" | .ldx _ => "LDX" | .ldy _ => "LDY" | .stx _ => "STX" | .sty _ => "STY"
  | .clc => "CLC" | .cld => "CLD" | .cli => "CLI" | .clv => "CLV" | .sec => "SEC" | .sed => "SED" | .sei => "SEI"
  | .brk => "BRK" | .jsr => "JSR" | .rts => "RTS" | .rti => "RTI"
  | .pha => "PHA" | .pla => "PLA" | .php => "PHP" | .plp => "PLP"
  | .unsupported _ => "UNSUPPORTED"

end Sys2Proof
end

