-- ==== Sys2Proof/Machine/Cycles.lean ====
section
/-! DEFINITION. The default table of `BASE_CYCLES` (spec/00_scope.md R7; spec/30_encoding.md R53), by instruction class and addressing
mode (log 2), and the parameters of this hardware. The table feeds `CYC` and nothing else (spec/70_reset_and_hazards.md R159). -/

namespace Sys2Proof

/-- The base cycle cost of an instruction (R53). An instruction that only faults charges nothing (R139, R160). -/
def Instr.baseCycles : Instr → Nat
  -- read operand
  | .adc m | .and m | .ora m | .eor m | .cmp m | .lda m => m.pick 2 3 4 4 4 4 6 5
  | .bit m => m.pick 3 4
  | .cpx m | .cpy m => m.pick 2 3 4
  | .ldx m => m.pick 2 3 4 4 4
  | .ldy m => m.pick 2 3 4 4 4
  | .stx m => m.pick 3 4 4
  | .sty m => m.pick 3 4 4
  -- read-modify-write
  | .asl m | .lsr m | .rol m | .ror m => m.pick 2 5 6 6 7
  | .dec m | .inc m => m.pick 5 6 6 7
  | .jmp => 3
  | .dex | .dey | .inx | .iny => 2
  | .clc | .cld | .cli | .clv | .sec | .sed | .sei => 2
  | .bcc | .bcs | .beq | .bne | .bmi | .bpl | .bvc | .bvs => 2
  | .brk | .jsr | .rts | .rti | .pha | .pla | .php | .plp => 0
  | .unsupported _ => 0

/-- The default `BASE_CYCLES`, by opcode byte as R7 types it. -/
def Config.baseCycles (op : Byte) : Nat := (decodeOpcode op).baseCycles

/-- The parameters of this hardware (R5, R6, R7): what the host's `exec`, `step` and `State.reset` are given. -/
def Config.params : Params where
  capacity := Config.capacity
  interruptPeriod := Config.interruptPeriod
  baseCycles := Config.baseCycles

end Sys2Proof
end

