-- ==== Sys2Proof/Machine/State.lean ====
section
/-! DEFINITION. The state of the machine (spec/10_state.md R13: "exactly this list, and nothing else"), the reasons a step can stop
(spec/60_exceptions.md R132), and the state after reset (R26, R150). All of it is plain data. -/

namespace Sys2Proof.Machine

/-- `MEM`, a byte array (R21), held as the cells that differ from what an unlisted address reads as. Its length, `CAPACITY`, is a
parameter and no state (R25). -/
structure Memory where
  /-- The cells whose byte is not `Memory.unlisted`, addresses strictly rising (`Memory.wf`). -/
  cells : List Host.Cell
deriving DecidableEq, Repr

/-- What an unlisted address reads as: memory is cleared at reset (R26, R34; log 1). -/
def Memory.unlisted : Byte := 0

/-- The one canonical form: addresses strictly rising, none at or above the capacity, no cell that reads as an unlisted one. -/
abbrev Memory.wf (P : Params) (m : Memory) : Prop :=
  m.cells.Pairwise (fun p q => p.1 < q.1) ∧ ∀ p ∈ m.cells, p.1 < P.capacity ∧ p.2 ≠ Memory.unlisted

/-- The architectural state (R13), field by field as R26 lists it, and the model's own `openCount` (log 7). -/
structure State where
  /-- `A`, the accumulator (R14). -/
  a : Byte
  /-- `X` (R14). -/
  x : Byte
  /-- `Y` (R14). -/
  y : Byte
  /-- `PC` (R15). -/
  pc : Word16
  /-- `SP`, which no instruction reads or writes (R16). -/
  sp : Byte
  /-- `C`, carry (R17, R18). -/
  flagC : Bool
  /-- `Z`, zero (R17, R18). -/
  flagZ : Bool
  /-- `I`, interrupt_disable, read by nothing (R18, R141). -/
  flagI : Bool
  /-- `D`, decimal_mode, read by ADC only (R18). -/
  flagD : Bool
  /-- `V`, overflow (R17, R18). -/
  flagV : Bool
  /-- `N`, negative (R17, R18). -/
  flagN : Bool
  /-- `CUR_OP`, the last fetched opcode byte (R19). -/
  curOp : Byte
  /-- `CYC`, the cycle budget, a mathematical integer (R20, decision D22). -/
  cyc : Int
  /-- `MEM` (R21). -/
  mem : Memory
  /-- The MODEL'S field, not the spec's: how many times the free value `Config.penaltyDebitedAtFault` was used (log 7). -/
  openCount : Nat
deriving DecidableEq, Repr

/-- The four fault kinds with the information R132 gives each, and with `after`, the state the faulting step or host operation
leaves (R139; log 6): a fault is reported to the host, which may go on from that state. Every one is the spec's own fault: safe. -/
inductive Fault where
  /-- Raised by a memory read or write at or above the capacity (R31, R32, R133): opcode fetch, operand, pointer or data read of a
  step, or a host access. Safe: the spec's fault. -/
  | outOfRange (addr : Nat) (after : State)
  /-- Raised by the host's load of a program that does not fit (R33, R134); never by a step. Safe: the spec's fault. -/
  | invalidLoad (offset len : Nat) (after : State)
  /-- Raised by the instruction `unsupported` for each of the 128 bytes (R131, R135). Safe: the spec's fault. -/
  | unsupportedOpcode (byte : Byte) (after : State)
  /-- Raised by BRK, JSR, RTS, RTI, PHA, PLA, PHP and PLP (R129, R130, R136). Safe: the spec's fault. -/
  | unimplemented (byte : Byte) (after : State)
deriving DecidableEq, Repr

/-- What the model declines to give a meaning. -/
inductive Refusal where
  /-- An arm of `exec` that has no meaning yet. No arm raises it now. Safe: the machine stops. -/
  | notModelled (mnemonic : String)
  /-- Raised by the resolver when asked for the address of a mode that has none (R74: Accumulator, Implied, and Indirect, which no
  instruction uses). No instruction reaches it (`Laws/Step.lean`). Safe: the machine stops. -/
  | noEffectiveAddress (mode : AddressingMode)
deriving DecidableEq, Repr

/-- Construction of a core with the given parameters (R150 with the values of R26; `curOp`: decision D16, log 5). -/
def State.construct (P : Params) : State where
  a := 0x00
  x := 0x00
  y := 0x00
  pc := 0x0000
  sp := 0xFF
  flagC := false
  flagZ := false
  flagI := false
  flagD := false
  flagV := false
  flagN := false
  curOp := 0x00
  cyc := P.interruptPeriod
  mem := ⟨[]⟩
  openCount := 0

/-- The machine right after reset (R26, R150), with the parameters of this hardware (R5 to R7). -/
def State.reset : State := State.construct Config.params

end Sys2Proof.Machine
end

