-- ==== Sys2Proof/Machine/Flags.lean ====
section
/-! DEFINITION. Every flag computation of the spec and the values computed beside them: `SetZN` (spec/00_scope.md R11), the sum of
ADC (spec/41_adc.md R80 to R82), the shifted-out carry (spec/43_shift_rotate.md R87 to R91), BIT and the compares
(spec/44_bit_compare.md R92, R93). Sums and differences are exact integers, narrowed where the rule says so. -/

namespace Sys2Proof.Machine

/-- "zero ⇔ value == 0" (R11). -/
def isZero (v : Byte) : Bool := v == 0

/-- "negative ⇔ value > 127" (R11). -/
def isNegative (v : Byte) : Bool := decide (127 < v.toNat)

/-- `SetZN(v)` (R11). -/
def setZN (v : Byte) (s : State) : State := { s with flagZ := isZero v, flagN := isNegative v }

/-! ### ADC (R80) -/

/-- The raw sum `m + A + (C ? 1 : 0)`, 0 to 511, not truncated. -/
def adcSum (a m : Byte) (c : Bool) : Nat := m.toNat + a.toNat + c.toNat

/-- `V`, from the old `A`, the operand and the raw sum, before any adjustment (R80, R81). -/
def adcOverflow (a m : Byte) (sum : Nat) : Bool := ((a.toNat ^^^ sum) &&& (m.toNat ^^^ sum) &&& 0x80) != 0

/-- The carry out: above 99 in decimal mode, above 255 in binary mode. -/
def adcCarry (d : Bool) (sum : Nat) : Bool := if d then decide (99 < sum) else decide (255 < sum)

/-- The new accumulator: 100 or 256 is subtracted when the carry is set; a decimal result above 255 is reduced modulo 256 (R82,
decision D12; log 10). -/
def adcValue (d : Bool) (sum : Nat) : Byte :=
  BitVec.ofNat 8 (if adcCarry d sum then (if d then sum - 100 else sum - 256) else sum)

/-- ADC's effect on the state, given the operand byte. -/
def addWithCarry (m : Byte) (s : State) : State :=
  let sum := adcSum s.a m s.flagC
  setZN (adcValue s.flagD sum)
    { s with a := adcValue s.flagD sum, flagC := adcCarry s.flagD sum, flagV := adcOverflow s.a m sum }

/-! ### Shifts and rotates: the result and the carry out, from the value and the carry in -/

/-- ASL (R88). -/
def shiftLeft (v : Byte) (_cin : Bool) : Byte × Bool := (v <<< 1, v.getLsbD 7)

/-- LSR (R89). -/
def shiftRight (v : Byte) (_cin : Bool) : Byte × Bool := (v >>> 1, v.getLsbD 0)

/-- ROL (R90): the old carry enters bit 0. -/
def rotateLeft (v : Byte) (cin : Bool) : Byte × Bool := (v <<< 1 ||| BitVec.ofNat 8 cin.toNat, v.getLsbD 7)

/-- ROR (R91): the old carry enters bit 7. -/
def rotateRight (v : Byte) (cin : Bool) : Byte × Bool := (v >>> 1 ||| BitVec.ofNat 8 (cin.toNat * 128), v.getLsbD 0)

/-- The flags of a shift or rotate (R87): the carry out, and zero and negative of the result. -/
def setShiftFlags (r : Byte × Bool) (s : State) : State := setZN r.1 { s with flagC := r.2 }

/-! ### BIT and the compares -/

/-- BIT (R92): `V` and `N` from the raw memory byte, `Z` from the AND with `A`. -/
def bitTest (m : Byte) (s : State) : State :=
  { s with flagV := m.getLsbD 6, flagN := m.getLsbD 7, flagZ := isZero (m &&& s.a) }

/-- The wrapped difference of a compare (R93): 0x10000 is added to a negative difference. -/
def compareDiff (r m : Byte) : Int :=
  let diff : Int := (r.toNat : Int) - (m.toNat : Int)
  if diff < 0 then diff + 0x10000 else diff

/-- The flags of CMP, CPX and CPY (R93, decision D11; log 9). -/
def compareFlags (r m : Byte) (s : State) : State :=
  { s with
    flagC := decide (m.toNat ≤ r.toNat)
    flagZ := decide (compareDiff r m = 0)
    flagN := decide (127 < compareDiff r m) }

end Sys2Proof.Machine
end

