-- ==== Sys2Proof/Machine/Ops.lean ====
section
/-! DEFINITION. The named operations every meaning is built from: the memory controller (spec/20_memory.md R30 to R34), raising a
fault (spec/60_exceptions.md R139), the opcode fetch, completion and replenishment of a step (spec/40_execution_cycle.md R60, R63,
R76). Each that needs a parameter of the machine takes the parameters `P` as its argument (spec/10_state.md R25). -/

namespace Sys2Proof.Machine

/-! ### The memory controller -/

/-- The byte listed at address `a`, or what an unlisted address reads as. -/
def lookupCell : List Host.Cell → Nat → Byte
  | [], _ => Memory.unlisted
  | (k, v) :: rest, a => if a = k then v else lookupCell rest a

/-- The list with the byte at address `a` made `v`, in canonical form: a byte equal to an unlisted one is not listed. -/
def storeCell : List Host.Cell → Nat → Byte → List Host.Cell
  | [], a, v => if v = Memory.unlisted then [] else [(a, v)]
  | (k, w) :: rest, a, v =>
    if a < k then (if v = Memory.unlisted then (k, w) :: rest else (a, v) :: (k, w) :: rest)
    else if a = k then (if v = Memory.unlisted then rest else (a, v) :: rest)
    else (k, w) :: storeCell rest a v

/-- The bytes written one after the other from address `a` on (the loop of R33). -/
def storeCells : List Host.Cell → Nat → List Byte → List Host.Cell
  | cells, _, [] => cells
  | cells, a, v :: vs => storeCells (storeCell cells a v) (a + 1) vs

/-- The byte of the array at an address, the bounds check aside. -/
def Memory.get (m : Memory) (addr : Nat) : Byte := lookupCell m.cells addr

/-- `read(address)` (R31): the byte, or nothing when the address is at or above the capacity. It changes no state. -/
def Memory.read (P : Params) (m : Memory) (addr : Nat) : Option Byte :=
  if addr < P.capacity then some (m.get addr) else none

/-- `write(address, value)` (R32): the memory with that one byte changed, or nothing when out of range. -/
def Memory.write (P : Params) (m : Memory) (addr : Nat) (v : Byte) : Option Memory :=
  if addr < P.capacity then some ⟨storeCell m.cells addr v⟩ else none

/-- `load(offset, bytes)` (R33): all bytes or none; `offset + len` is a mathematical sum. -/
def Memory.load (P : Params) (m : Memory) (offset : Nat) (bytes : List Byte) : Option Memory :=
  if P.capacity < offset ∨ P.capacity < offset + bytes.length then none
  else some ⟨storeCells m.cells offset bytes⟩

/-- What `clear()` leaves (R34): every byte is zero. It cannot fail. -/
def Memory.clear (_m : Memory) : Memory := ⟨[]⟩

/-! ### Outcomes -/

/-- Going on from an outcome: a fault or a refusal ends the step at once (R78, R11 `raise`). -/
def andThen {σ τ : Type} (o : Host.Outcome σ Fault Refusal) (f : σ → Host.Outcome τ Fault Refusal) :
    Host.Outcome τ Fault Refusal :=
  match o with
  | .next v => f v
  | .fault r => .fault r
  | .refused r => .refused r

/-- Taking a fault (R139): nothing is saved, masked or vectored and control goes nowhere in the machine; the step ends and the
fault is reported to the host together with the state it leaves. There is no return from a fault (R140). -/
def raise {τ : Type} (kind : State → Fault) (after : State) : Host.Outcome τ Fault Refusal := .fault (kind after)

/-- `MemRead(addr, 1)` (R11, R31): a fault leaves the state as it is. -/
def memRead (P : Params) (addr : Nat) (s : State) : Host.Outcome Byte Fault Refusal :=
  match s.mem.read P addr with
  | some v => .next v
  | none => raise (.outOfRange addr) s

/-- `MemWrite(addr, 1, v)` (R11, R32): one byte changes and nothing else. -/
def memWrite (P : Params) (addr : Nat) (v : Byte) (s : State) : Host.Outcome State Fault Refusal :=
  match s.mem.write P addr v with
  | some m => .next { s with mem := m }
  | none => raise (.outOfRange addr) s

/-! ### The step's own phases -/

/-- Phases 1 and 2 of a step (R60): the byte at `PC`, `CUR_OP` written, `PC` incremented (D14, log 12). When the fetch faults
nothing has changed (R78). -/
def fetchOpcode (P : Params) (s : State) : Host.Outcome (Byte × State) Fault Refusal :=
  andThen (memRead P s.pc.toNat s) fun op => .next (op, { s with curOp := op, pc := s.pc + 1 })

/-- `Finish(len, opcode)` (R76): `PC` moves past the operand bytes and `BASE_CYCLES(opcode)` is debited. -/
def finish (P : Params) (i : Instr) (s : State) : State :=
  { s with pc := s.pc + BitVec.ofNat 16 (i.length - 1), cyc := s.cyc - (P.baseCycles i.opcode : Int) }

/-- Phase 5 of a step (R63): one addition of the period when `CYC` is negative. -/
def replenish (P : Params) (s : State) : State :=
  if s.cyc < 0 then { s with cyc := s.cyc + P.interruptPeriod } else s

end Sys2Proof.Machine
end

