-- ==== Sys2Proof/Machine/Operands.lean ====
section
/-! DEFINITION. The address resolver for every addressing-mode tag (spec/40_execution_cycle.md R64 to R75) and the shapes of operand
the handlers share (R62, R77). While a handler runs, `PC` is the address of the first operand byte (R60). -/

namespace Sys2Proof.Machine

/-- What the resolver finds: an effective address, and the penalty cycles it debits, 0 or 1 (R64, R75). -/
structure Resolved where
  addr : Nat
  penalty : Nat
deriving DecidableEq, Repr

/-- The opcode byte of ASL AbsoluteX, the one instruction exempt from the index penalty (R66, decision D21; log 20). -/
def penaltyExemptOpcode : Byte := 0x1E

/-- The two bytes at `p` and `p + 1`, low byte first; `p + 1` is not wrapped (R37, R65, R71, R72, decisions D9, D10; log 8). -/
def readPair (P : Params) (p : Nat) (s : State) : Host.Outcome Nat Fault Refusal :=
  andThen (memRead P p s) fun lo => andThen (memRead P (p + 1) s) fun hi => .next (littleEndian lo hi)

/-- A base address plus an index: above 0xFFFF it wraps by 0x10000, and then `penalty` cycles are due (R66, R67, R72). -/
def indexed (base index penalty : Nat) : Resolved :=
  if 0xFFFF < base + index then ⟨base + index - 0x10000, penalty⟩ else ⟨base + index, 0⟩

/-- `Resolve(mode)`. Its one side effect, the debit of the penalty, is returned beside the address and made by `chargePenalty`. -/
def resolve (P : Params) (mode : AddressingMode) (s : State) : Host.Outcome Resolved Fault Refusal :=
  match mode with
  | .absolute => andThen (readPair P s.pc.toNat s) fun base => .next ⟨base, 0⟩
  | .absoluteX => andThen (readPair P s.pc.toNat s) fun base =>
      .next (indexed base s.x.toNat (if s.curOp = penaltyExemptOpcode then 0 else 1))
  | .absoluteY => andThen (readPair P s.pc.toNat s) fun base => .next (indexed base s.y.toNat 1)
  | .zeroPage => andThen (memRead P s.pc.toNat s) fun b => .next ⟨b.toNat, 0⟩
  | .zeroPageX => andThen (memRead P s.pc.toNat s) fun b => .next ⟨(b.toNat + s.x.toNat) % 256, 0⟩
  -- X, not Y (R70)
  | .zeroPageY => andThen (memRead P s.pc.toNat s) fun b => .next ⟨(b.toNat + s.x.toNat) % 256, 0⟩
  | .indexedIndirect => andThen (memRead P s.pc.toNat s) fun b =>
      andThen (readPair P ((b.toNat + s.x.toNat) % 256) s) fun ea => .next ⟨ea, 0⟩
  | .indirectIndexed => andThen (memRead P s.pc.toNat s) fun b =>
      andThen (readPair P b.toNat s) fun base => .next (indexed base s.y.toNat 1)
  | .immediate => .next ⟨s.pc.toNat, 0⟩
  | .relative => .next ⟨s.pc.toNat, 0⟩
  -- no effective address (R74)
  | .accumulator => .refused (.noEffectiveAddress .accumulator)
  | .implied => .refused (.noEffectiveAddress .implied)
  | .indirect => .refused (.noEffectiveAddress .indirect)

/-- The debit of penalty cycles (R75). -/
def chargePenalty (penalty : Nat) (s : State) : State := { s with cyc := s.cyc - (penalty : Int) }

/-- The state left by a data read that faults (R139): with no penalty due it is unchanged; with one due, `CYC` is unchanged or
reduced by it, and the spec does not say which (U1; the free value of log 7). -/
def afterDataFault (penalty : Nat) (s : State) : State :=
  if penalty = 0 then s
  else { s with
    cyc := if Config.penaltyDebitedAtFault s.openCount then s.cyc - (penalty : Int) else s.cyc
    openCount := s.openCount + 1 }

/-- A memory operand: where it is, its byte, and the penalty cycles its address costs. -/
structure Operand where
  addr : Nat
  value : Byte
  penalty : Nat
deriving DecidableEq, Repr

/-- Steps (a) and (b) of a handler (R62): the effective address, then the data byte there, in the order of R77 (D17, log 15). -/
def fetchOperand (P : Params) (mode : AddressingMode) (s : State) : Host.Outcome Operand Fault Refusal :=
  andThen (resolve P mode s) fun e =>
    match s.mem.read P e.addr with
    | some v => .next ⟨e.addr, v, e.penalty⟩
    | none => raise (.outOfRange e.addr) (afterDataFault e.penalty s)

/-- A handler with a memory operand that writes no memory: penalty, effect of the operand byte, completion (R62). -/
def readingHandler (P : Params) (i : Instr) (mode : AddressingMode) (effect : Byte → State → State) (s : State) :
    Host.Outcome State Fault Refusal :=
  andThen (fetchOperand P mode s) fun o => .next (finish P i (effect o.value (chargePenalty o.penalty s)))

/-- A read-modify-write handler (R62, R77): the byte written goes back to the address it was read from. `result` and `effect` see
the operand byte and the state before the instruction's own writes. -/
def modifyingHandler (P : Params) (i : Instr) (mode : AddressingMode) (result : Byte → State → Byte)
    (effect : Byte → State → State) (s : State) : Host.Outcome State Fault Refusal :=
  andThen (fetchOperand P mode s) fun o =>
    andThen (memWrite P o.addr (result o.value s) (effect o.value (chargePenalty o.penalty s))) fun t => .next (finish P i t)

/-- A handler without a memory operand (modes Implied and Accumulator): effect and completion. It cannot fault (R97, R121). -/
def registerHandler (P : Params) (i : Instr) (effect : State → State) (s : State) : Host.Outcome State Fault Refusal :=
  .next (finish P i (effect s))

end Sys2Proof.Machine
end

