-- ==== Sys2Proof/Machine/Arithmetic.lean ====
section
/-! DEFINITION. ADC (spec/41_adc.md R80 to R82), the one instruction that adds. -/

namespace Sys2Proof.Machine

/-- ADC, add memory and carry to the accumulator, binary or decimal (R80). -/
def execAdc (m : AluMode) (s : State) (P : Params := Config.params) : Host.Outcome State Fault Refusal :=
  readingHandler P (.adc m) m.tag addWithCarry s

end Sys2Proof.Machine
end

