-- ==== Sys2Proof/Machine/Compare.lean ====
section
/-! DEFINITION. BIT, CMP, CPX and CPY (spec/44_bit_compare.md R92 to R96). They write flags only. -/

namespace Sys2Proof.Machine

/-- BIT (R92). -/
def execBit (m : BitMode) (s : State) (P : Params := Config.params) : Host.Outcome State Fault Refusal :=
  readingHandler P (.bit m) m.tag bitTest s

/-- CMP (R94). -/
def execCmp (m : AluMode) (s : State) (P : Params := Config.params) : Host.Outcome State Fault Refusal :=
  readingHandler P (.cmp m) m.tag (fun v t => compareFlags t.a v t) s

/-- CPX (R95). -/
def execCpx (m : IndexCompareMode) (s : State) (P : Params := Config.params) : Host.Outcome State Fault Refusal :=
  readingHandler P (.cpx m) m.tag (fun v t => compareFlags t.x v t) s

/-- CPY (R96). -/
def execCpy (m : IndexCompareMode) (s : State) (P : Params := Config.params) : Host.Outcome State Fault Refusal :=
  readingHandler P (.cpy m) m.tag (fun v t => compareFlags t.y v t) s

end Sys2Proof.Machine
end

