-- ==== Sys2Proof/Machine/Control.lean ====
section
/-! DEFINITION. The conditional branches and JMP (spec/46_branch_jump.md R104 to R113). -/

namespace Sys2Proof.Machine

/-- `wrap16(v)` (spec/00_scope.md R11). -/
def wrap16 (v : Int) : Int := if v < 0 then v + 0x10000 else if 0xFFFF < v then v - 0x10000 else v

/-- Whether the raw target left 0 to 0xFFFF: one more cycle (R104, R75). -/
def leavesRange (t : Int) : Bool := decide (t < 0 ∨ 0xFFFF < t)

/-- A taken branch, given the offset byte: one cycle, one more past the 64 KiB boundary, and the wrapped target in `PC`. -/
def takeBranch (off : Byte) (s : State) : State :=
  let t : Int := (s.pc.toNat : Int) + branchDisplacement off
  { s with pc := BitVec.ofInt 16 (wrap16 t), cyc := s.cyc - (if leavesRange t then 2 else 1) }

/-- The common contract of the branches (R104): the offset byte is read only when the branch is taken, and `Finish` runs either
way. -/
def branchHandler (P : Params) (i : Instr) (cond : Bool) (s : State) : Host.Outcome State Fault Refusal :=
  if cond then readingHandler P i .relative takeBranch s else .next (finish P i s)

/-- BCC (R105). -/
def execBcc (s : State) (P : Params := Config.params) : Host.Outcome State Fault Refusal :=
  branchHandler P .bcc (!s.flagC) s

/-- BCS (R106). -/
def execBcs (s : State) (P : Params := Config.params) : Host.Outcome State Fault Refusal :=
  branchHandler P .bcs (s.flagC) s

/-- BEQ (R107). -/
def execBeq (s : State) (P : Params := Config.params) : Host.Outcome State Fault Refusal :=
  branchHandler P .beq (s.flagZ) s

/-- BNE (R108). -/
def execBne (s : State) (P : Params := Config.params) : Host.Outcome State Fault Refusal :=
  branchHandler P .bne (!s.flagZ) s

/-- BMI (R109). -/
def execBmi (s : State) (P : Params := Config.params) : Host.Outcome State Fault Refusal :=
  branchHandler P .bmi (s.flagN) s

/-- BPL (R110). -/
def execBpl (s : State) (P : Params := Config.params) : Host.Outcome State Fault Refusal :=
  branchHandler P .bpl (!s.flagN) s

/-- BVC (R111). -/
def execBvc (s : State) (P : Params := Config.params) : Host.Outcome State Fault Refusal :=
  branchHandler P .bvc (!s.flagV) s

/-- BVS (R112). -/
def execBvs (s : State) (P : Params := Config.params) : Host.Outcome State Fault Refusal :=
  branchHandler P .bvs (s.flagV) s

/-- JMP to an absolute address (R113): no `Finish`, `PC` is the target. -/
def execJmp (s : State) (P : Params := Config.params) : Host.Outcome State Fault Refusal :=
  andThen (resolve P .absolute s) fun e =>
    .next { s with pc := BitVec.ofNat 16 e.addr, cyc := s.cyc - (P.baseCycles Instr.jmp.opcode : Int) }

end Sys2Proof.Machine
end

