-- ==== Sys2Proof/Machine/Count.lean ====
section
/-! DEFINITION. DEC, INC, DEX, DEY, INX and INY (spec/45_incdec.md R97 to R103): modulo 256, `Z` and `N` from the new value. -/

namespace Sys2Proof.Machine

/-- DEC, a memory byte less one (R98). -/
def execDec (m : CountMode) (s : State) (P : Params := Config.params) : Host.Outcome State Fault Refusal :=
  modifyingHandler P (.dec m) m.tag (fun v _ => v - 1) (fun v t => setZN (v - 1) t) s

/-- INC, a memory byte plus one (R99). -/
def execInc (m : CountMode) (s : State) (P : Params := Config.params) : Host.Outcome State Fault Refusal :=
  modifyingHandler P (.inc m) m.tag (fun v _ => v + 1) (fun v t => setZN (v + 1) t) s

/-- DEX (R100). -/
def execDex (s : State) (P : Params := Config.params) : Host.Outcome State Fault Refusal :=
  registerHandler P .dex (fun t => setZN (t.x - 1) { t with x := t.x - 1 }) s

/-- DEY (R101). -/
def execDey (s : State) (P : Params := Config.params) : Host.Outcome State Fault Refusal :=
  registerHandler P .dey (fun t => setZN (t.y - 1) { t with y := t.y - 1 }) s

/-- INX (R102). -/
def execInx (s : State) (P : Params := Config.params) : Host.Outcome State Fault Refusal :=
  registerHandler P .inx (fun t => setZN (t.x + 1) { t with x := t.x + 1 }) s

/-- INY (R103). -/
def execIny (s : State) (P : Params := Config.params) : Host.Outcome State Fault Refusal :=
  registerHandler P .iny (fun t => setZN (t.y + 1) { t with y := t.y + 1 }) s

end Sys2Proof.Machine
end

