-- ==== Sys2Proof/Machine/Faulting.lean ====
section
/-! DEFINITION. The instructions whose whole effect is a fault (spec/48_flags_brk.md R129 to R131): phases 1 and 2 of the step have
run (`CUR_OP` and `PC` are written), nothing else changes, and no operand byte is read. -/

namespace Sys2Proof.Machine

/-- Raising `Unimplemented(opcode)` (R129). -/
def unimplementedHandler (i : Instr) (s : State) : Host.Outcome State Fault Refusal :=
  raise (.unimplemented i.opcode) s

/-- BRK: recognised, not executed (R129). -/
def execBrk (s : State) : Host.Outcome State Fault Refusal :=
  unimplementedHandler .brk s

/-- JSR: recognised, not executed (R130). -/
def execJsr (s : State) : Host.Outcome State Fault Refusal :=
  unimplementedHandler .jsr s

/-- RTS: recognised, not executed (R130). -/
def execRts (s : State) : Host.Outcome State Fault Refusal :=
  unimplementedHandler .rts s

/-- RTI: recognised, not executed (R130). -/
def execRti (s : State) : Host.Outcome State Fault Refusal :=
  unimplementedHandler .rti s

/-- PHA: recognised, not executed (R130). -/
def execPha (s : State) : Host.Outcome State Fault Refusal :=
  unimplementedHandler .pha s

/-- PLA: recognised, not executed (R130). -/
def execPla (s : State) : Host.Outcome State Fault Refusal :=
  unimplementedHandler .pla s

/-- PHP: recognised, not executed (R130). -/
def execPhp (s : State) : Host.Outcome State Fault Refusal :=
  unimplementedHandler .php s

/-- PLP: recognised, not executed (R130). -/
def execPlp (s : State) : Host.Outcome State Fault Refusal :=
  unimplementedHandler .plp s

/-- Any of the 128 unsupported bytes (R131). -/
def execUnsupported (b : Byte) (s : State) : Host.Outcome State Fault Refusal :=
  raise (.unsupportedOpcode b) s

end Sys2Proof.Machine
end

