-- ==== Sys2Proof/Machine/FlagOps.lean ====
section
/-! DEFINITION. The seven flag instructions (spec/48_flags_brk.md R121 to R128): one flag each, no memory access. -/

namespace Sys2Proof.Machine

/-- CLC (R122). -/
def execClc (s : State) (P : Params := Config.params) : Host.Outcome State Fault Refusal :=
  registerHandler P .clc (fun t => { t with flagC := false }) s

/-- CLD (R123). -/
def execCld (s : State) (P : Params := Config.params) : Host.Outcome State Fault Refusal :=
  registerHandler P .cld (fun t => { t with flagD := false }) s

/-- CLI (R124). -/
def execCli (s : State) (P : Params := Config.params) : Host.Outcome State Fault Refusal :=
  registerHandler P .cli (fun t => { t with flagI := false }) s

/-- CLV (R125). -/
def execClv (s : State) (P : Params := Config.params) : Host.Outcome State Fault Refusal :=
  registerHandler P .clv (fun t => { t with flagV := false }) s

/-- SEC (R126). -/
def execSec (s : State) (P : Params := Config.params) : Host.Outcome State Fault Refusal :=
  registerHandler P .sec (fun t => { t with flagC := true }) s

/-- SED (R127). -/
def execSed (s : State) (P : Params := Config.params) : Host.Outcome State Fault Refusal :=
  registerHandler P .sed (fun t => { t with flagD := true }) s

/-- SEI (R128). -/
def execSei (s : State) (P : Params := Config.params) : Host.Outcome State Fault Refusal :=
  registerHandler P .sei (fun t => { t with flagI := true }) s

end Sys2Proof.Machine
end

