-- ==== Sys2Proof/Machine/LoadStore.lean ====
section
/-! DEFINITION. LDA, LDX, LDY, and STX and STY, which on this hardware copy memory INTO the register (spec/47_load_store.md R115 to
R120). -/

namespace Sys2Proof.Machine

/-- LDA (R116). -/
def execLda (m : AluMode) (s : State) (P : Params := Config.params) : Host.Outcome State Fault Refusal :=
  readingHandler P (.lda m) m.tag (fun v t => setZN v { t with a := v }) s

/-- LDX (R117). -/
def execLdx (m : LdxMode) (s : State) (P : Params := Config.params) : Host.Outcome State Fault Refusal :=
  readingHandler P (.ldx m) m.tag (fun v t => setZN v { t with x := v }) s

/-- LDY (R118). -/
def execLdy (m : LdyMode) (s : State) (P : Params := Config.params) : Host.Outcome State Fault Refusal :=
  readingHandler P (.ldy m) m.tag (fun v t => setZN v { t with y := v }) s

/-- STX: memory to `X`, no flag, no memory written (R119, decision D13; log 11). -/
def execStx (m : StxMode) (s : State) (P : Params := Config.params) : Host.Outcome State Fault Refusal :=
  readingHandler P (.stx m) m.tag (fun v t => { t with x := v }) s

/-- STY: memory to `Y`, no flag, no memory written (R120, decision D13; log 11). -/
def execSty (m : StyMode) (s : State) (P : Params := Config.params) : Host.Outcome State Fault Refusal :=
  readingHandler P (.sty m) m.tag (fun v t => { t with y := v }) s

end Sys2Proof.Machine
end

