-- ==== Sys2Proof/Machine/Logic.lean ====
section
/-! DEFINITION. AND, ORA and EOR (spec/42_logic.md R83 to R86). -/

namespace Sys2Proof.Machine

/-- The common contract of the logic instructions (R83): the result goes to `A` and sets `Z` and `N`. -/
def setAccumulator (v : Byte) (s : State) : State := setZN v { s with a := v }

/-- AND (R84). -/
def execAnd (m : AluMode) (s : State) (P : Params := Config.params) : Host.Outcome State Fault Refusal :=
  readingHandler P (.and m) m.tag (fun v t => setAccumulator (t.a &&& v) t) s

/-- ORA (R85). -/
def execOra (m : AluMode) (s : State) (P : Params := Config.params) : Host.Outcome State Fault Refusal :=
  readingHandler P (.ora m) m.tag (fun v t => setAccumulator (t.a ||| v) t) s

/-- EOR (R86). -/
def execEor (m : AluMode) (s : State) (P : Params := Config.params) : Host.Outcome State Fault Refusal :=
  readingHandler P (.eor m) m.tag (fun v t => setAccumulator (t.a ^^^ v) t) s

end Sys2Proof.Machine
end

