-- ==== Sys2Proof/Machine/Shift.lean ====
section
/-! DEFINITION. ASL, LSR, ROL and ROR (spec/43_shift_rotate.md R87 to R91). -/

namespace Sys2Proof.Machine

/-- The common frame of the shifts and rotates (R87): the accumulator or a memory byte, one bit position, with the carry before
the instruction as carry in. -/
def shiftHandler (P : Params) (i : Instr) (m : ShiftMode) (op : Byte → Bool → Byte × Bool) (s : State) :
    Host.Outcome State Fault Refusal :=
  match m with
  | .accumulator => registerHandler P i (fun t => setShiftFlags (op t.a t.flagC) { t with a := (op t.a t.flagC).1 }) s
  | .zeroPage | .zeroPageX | .absolute | .absoluteX =>
    modifyingHandler P i m.tag (fun v t => (op v t.flagC).1) (fun v t => setShiftFlags (op v t.flagC) t) s

/-- ASL (R88; exempt from the index penalty, R66). -/
def execAsl (m : ShiftMode) (s : State) (P : Params := Config.params) : Host.Outcome State Fault Refusal :=
  shiftHandler P (.asl m) m shiftLeft s

/-- LSR (R89). -/
def execLsr (m : ShiftMode) (s : State) (P : Params := Config.params) : Host.Outcome State Fault Refusal :=
  shiftHandler P (.lsr m) m shiftRight s

/-- ROL (R90). -/
def execRol (m : ShiftMode) (s : State) (P : Params := Config.params) : Host.Outcome State Fault Refusal :=
  shiftHandler P (.rol m) m rotateLeft s

/-- ROR (R91). -/
def execRor (m : ShiftMode) (s : State) (P : Params := Config.params) : Host.Outcome State Fault Refusal :=
  shiftHandler P (.ror m) m rotateRight s

end Sys2Proof.Machine
end

