-- ==== Sys2Proof/Machine/Step.lean ====
section
/-! DEFINITION. One step (spec/40_execution_cycle.md R60), and how the host's checks place an instruction where a step fetches. -/

namespace Sys2Proof.Machine

/-- One step of this hardware: fetch (phases 1, 2), dispatch (3), the handler (4), replenishment (5). A fault or a refusal ends it at
once. With other parameters a step is `stepAt` (Machine/Parametric.lean). -/
def step (s : State) : Host.Outcome State Fault Refusal :=
  andThen (fetchOpcode Config.params s) fun (op, t) => andThen (exec (decodeOpcode op) t) fun u => .next (replenish Config.params u)

/-- A byte placed in memory, where there is memory at that address. -/
def State.poke (s : State) (addr : Nat) (v : Byte) : State :=
  match s.mem.write Config.params addr v with
  | some m => { s with mem := m }
  | none => s

/-- The three bytes of `tableWordBytes` placed where the next step reads its opcode (`PC`), its first operand byte (`PC` after
the increment, which wraps) and its second (one above, which does not wrap, R65). -/
def State.withFetchWord (s : State) (nbits w : Nat) : State :=
  let p := (s.pc + 1).toNat
  match tableWordBytes nbits w with
  | [op, lo, hi] => ((s.poke s.pc.toNat op).poke p lo).poke (p + 1) hi
  | _ => s

end Sys2Proof.Machine
end

