-- ==== Sys2Proof/Machine/HostOps.lean ====
section
/-! DEFINITION. The host's operations other than `step` (spec/60_exceptions.md R145; spec/10_state.md R28): program loading
(spec/70_reset_and_hazards.md R152) and the memory controller's operations, for a host that holds the memory. Construction is
`State.construct`; the read-only accessors are the fields of `State`. None is reachable from an instruction (R151). -/

namespace Sys2Proof.Machine

/-- The memory controller's `load` (R33): when it does not fit nothing changes (R134). -/
def hostLoad (P : Params) (offset : Nat) (bytes : List Byte) (s : State) : Host.Outcome State Fault Refusal :=
  match s.mem.load P offset bytes with
  | some m => .next { s with mem := m }
  | none => raise (.invalidLoad offset bytes.length) s

/-- `load_program(offset, bytes, initial_pc)` (R152): the load, then `PC`; when the load faults `PC` is unchanged (decision D20;
log 16). -/
def loadProgram (P : Params) (offset : BitVec 32) (bytes : List Byte) (initialPc : Word16) (s : State) :
    Host.Outcome State Fault Refusal :=
  andThen (hostLoad P offset.toNat bytes s) fun t => .next { t with pc := initialPc }

/-- The memory controller's `read` (R31). -/
def hostRead (P : Params) (addr : Nat) (s : State) : Host.Outcome Byte Fault Refusal := memRead P addr s

/-- The memory controller's `write` (R32). -/
def hostWrite (P : Params) (addr : Nat) (v : Byte) (s : State) : Host.Outcome State Fault Refusal := memWrite P addr v s

/-- The memory controller's `clear` (R34, R151): memory only. -/
def hostClear (s : State) : State := { s with mem := s.mem.clear }

end Sys2Proof.Machine
end

