-- ==== Sys2Proof/Machine/Parametric.lean ====
section
/-! DEFINITION. The machine with its parameters as an argument (spec/00_scope.md R5 to R7, spec/10_state.md R25). `exec` and `step`,
whose types the host fixes, are these at `Config.params` (log 22; `exec_eq_execAt`, `step_eq_stepAt` in Laws/Step.lean). -/

namespace Sys2Proof.Machine

/-- Dispatch (R61) on a machine with parameters `P`: the same meanings as `exec`. An instruction that only faults uses none. -/
def execAt (P : Params) (i : Instr) (s : State) : Host.Outcome State Fault Refusal :=
  match i with
  | .adc m => execAdc m s P
  | .and m => execAnd m s P
  | .ora m => execOra m s P
  | .eor m => execEor m s P
  | .asl m => execAsl m s P
  | .lsr m => execLsr m s P
  | .rol m => execRol m s P
  | .ror m => execRor m s P
  | .bit m => execBit m s P
  | .cmp m => execCmp m s P
  | .cpx m => execCpx m s P
  | .cpy m => execCpy m s P
  | .dec m => execDec m s P
  | .inc m => execInc m s P
  | .dex => execDex s P
  | .dey => execDey s P
  | .inx => execInx s P
  | .iny => execIny s P
  | .bcc => execBcc s P
  | .bcs => execBcs s P
  | .beq => execBeq s P
  | .bne => execBne s P
  | .bmi => execBmi s P
  | .bpl => execBpl s P
  | .bvc => execBvc s P
  | .bvs => execBvs s P
  | .jmp => execJmp s P
  | .lda m => execLda m s P
  | .ldx m => execLdx m s P
  | .ldy m => execLdy m s P
  | .stx m => execStx m s P
  | .sty m => execSty m s P
  | .clc => execClc s P
  | .cld => execCld s P
  | .cli => execCli s P
  | .clv => execClv s P
  | .sec => execSec s P
  | .sed => execSed s P
  | .sei => execSei s P
  | .brk => execBrk s
  | .jsr => execJsr s
  | .rts => execRts s
  | .rti => execRti s
  | .pha => execPha s
  | .pla => execPla s
  | .php => execPhp s
  | .plp => execPlp s
  | .unsupported b => execUnsupported b s

/-- One step (R60) of a machine with parameters `P`. -/
def stepAt (P : Params) (s : State) : Host.Outcome State Fault Refusal :=
  andThen (fetchOpcode P s) fun (op, t) => andThen (execAt P (decodeOpcode op) t) fun u => .next (replenish P u)

end Sys2Proof.Machine
end

