-- ==== Sys2Proof/Safety.lean ====
section
/-! DEFINITION. The terms the claims use: which instructions complete, which pieces of state each may write (the writer tables of
spec/10_state.md R14, R18 and spec/20_memory.md R39), the tests of the branches, the machine's invariant, the reachable states, and
what it means for a field to influence nothing. None of it is used by the machine. -/

namespace Sys2Proof

open Sys2Proof.Machine

/-! ### Classes of instructions -/

/-- The 39 mnemonics a step executes to completion (spec/00_scope.md R3, R12). -/
def Instr.executable : Instr → Bool
  | .brk | .jsr | .rts | .rti | .pha | .pla | .php | .plp | .unsupported _ => false
  | _ => true

/-- The eight recognised, unexecuted instructions with the bytes R54 gives them. -/
def unimplementedInstructions : List (Instr × Byte) :=
  [(.brk, 0x00), (.jsr, 0x20), (.rts, 0x60), (.rti, 0x40), (.pha, 0x48), (.pla, 0x68), (.php, 0x08), (.plp, 0x28)]

/-- The read-modify-write forms, with their mode: the only instructions that write memory (R39, R77). -/
def Instr.modifies : Instr → Option AddressingMode
  | .asl m | .lsr m | .rol m | .ror m => if m = .accumulator then none else some m.tag
  | .dec m | .inc m => some m.tag
  | _ => none

/-- The instructions that transfer control: the eight branches and JMP (R114). -/
def Instr.transfersControl : Instr → Bool
  | .bcc | .bcs | .beq | .bne | .bmi | .bpl | .bvc | .bvs | .jmp => true
  | _ => false

/-- The writers of `A` (R14). -/
def Instr.writesA : Instr → Bool
  | .adc _ | .and _ | .ora _ | .eor _ | .lda _ => true
  | .asl m | .lsr m | .rol m | .ror m => m == .accumulator
  | _ => false

/-- The writers of `X` (R14). -/
def Instr.writesX : Instr → Bool
  | .ldx _ | .dex | .inx | .stx _ => true
  | _ => false

/-- The writers of `Y` (R14). -/
def Instr.writesY : Instr → Bool
  | .ldy _ | .dey | .iny | .sty _ => true
  | _ => false

/-- The writers of `C` (R18). -/
def Instr.writesC : Instr → Bool
  | .adc _ | .asl _ | .lsr _ | .rol _ | .ror _ | .cmp _ | .cpx _ | .cpy _ | .clc | .sec => true
  | _ => false

/-- The writers of `Z`, which are those of `N` (R18). -/
def Instr.writesZN : Instr → Bool
  | .adc _ | .and _ | .ora _ | .eor _ | .asl _ | .lsr _ | .rol _ | .ror _ | .bit _ | .cmp _ | .cpx _ | .cpy _ => true
  | .dec _ | .inc _ | .dex | .dey | .inx | .iny | .lda _ | .ldx _ | .ldy _ => true
  | _ => false

/-- The writers of `I` (R18). -/
def Instr.writesI : Instr → Bool
  | .cli | .sei => true
  | _ => false

/-- The writers of `D` (R18). -/
def Instr.writesD : Instr → Bool
  | .cld | .sed => true
  | _ => false

/-- The writers of `V` (R18). -/
def Instr.writesV : Instr → Bool
  | .adc _ | .bit _ | .clv => true
  | _ => false

/-- The flag a branch tests, and its own test of it (R105 to R112); nothing for another instruction. -/
def Instr.branchTest (i : Instr) (s : State) : Option Bool :=
  match i with
  | .bcc => some (s.flagC == false)
  | .bcs => some (s.flagC == true)
  | .beq => some (s.flagZ == true)
  | .bne => some (s.flagZ == false)
  | .bmi => some (s.flagN == true)
  | .bpl => some (s.flagN == false)
  | .bvc => some (s.flagV == false)
  | .bvs => some (s.flagV == true)
  | _ => none

/-! ### Invariants and reachable states -/

/-- The machine's invariant between completed steps: memory in its canonical form (which bounds every listed address), `SP` constant
(R16, R27), and the cycle budget between 0 and the period (R161). -/
structure MachineInv (P : Params) (s : State) : Prop where
  memory_canonical : s.mem.wf P
  sp_constant : s.sp = 0xFF
  cyc_nonneg : 0 ≤ s.cyc
  cyc_le_period : s.cyc ≤ P.interruptPeriod

/-- The state a fault leaves (R139). -/
def Machine.Fault.after : Fault → State
  | .outOfRange _ t | .invalidLoad _ _ t | .unsupportedOpcode _ t | .unimplemented _ t => t

/-- One move of the host on a core with parameters `P`: a step or a program load, each either completed or faulted (R139: the host may
go on from what a fault leaves; R145). -/
inductive HostMove (P : Params) : State → State → Prop where
  | stepped {s t} : stepAt P s = .next t → HostMove P s t
  | stepFaulted {s f} : stepAt P s = .fault f → HostMove P s f.after
  | loaded {s t} (offset : BitVec 32) (bytes : List Byte) (initialPc : Word16) :
      loadProgram P offset bytes initialPc s = .next t → HostMove P s t
  | loadFaulted {s f} (offset : BitVec 32) (bytes : List Byte) (initialPc : Word16) :
      loadProgram P offset bytes initialPc s = .fault f → HostMove P s f.after

/-- The states reachable from construction by the host's moves (R27). -/
inductive Reachable (P : Params) : State → Prop where
  | constructed : Reachable P (State.construct P)
  | moved {s t} : Reachable P s → HostMove P s t → Reachable P t

/-! ### What an outcome depends on -/

/-- A fault with its state changed by `f`. -/
def Machine.Fault.mapAfter (r : Fault) (f : State → State) : Fault :=
  match r with
  | .outOfRange addr t => .outOfRange addr (f t)
  | .invalidLoad offset len t => .invalidLoad offset len (f t)
  | .unsupportedOpcode b t => .unsupportedOpcode b (f t)
  | .unimplemented b t => .unimplemented b (f t)

/-- An outcome with the state it holds, the next one or the one a fault leaves, changed by `f`. -/
def mapOutcome (f : State → State) : Host.Outcome State Fault Refusal → Host.Outcome State Fault Refusal
  | .next t => .next (f t)
  | .fault r => .fault (r.mapAfter f)
  | .refused r => .refused r

/-! ### The shape of a claim about a read-modify-write result -/

/-- `t` is `s` after instruction `i` wrote the byte `r` at `addr` and the flags and budget of `u`, and completed: that one byte of
memory changed and no other, and everything else is as `finish P i u` has it. -/
def WroteByte (P : Params) (i : Instr) (u : State) (addr : Nat) (r : Byte) (t : State) : Prop :=
  t = { finish P i u with mem := t.mem } ∧ t.mem.read P addr = some r ∧
    ∀ other, other ≠ addr → t.mem.read P other = u.mem.read P other

end Sys2Proof
end

