-- ==== Sys2Proof/Certificates/Slice0/Obligations.lean ====
section
/-! DEFINITION. The statements for the provers, in the order of the spec's files. In a statement about a handler, `s` is the state the
handler starts from: `CUR_OP` holds the opcode byte and `PC` is the address of the first operand byte (spec/40_execution_cycle.md
R60). `finish P i` is `Finish(len, opcode)`, which `FinishAdvancesPcAndChargesBaseCycles` says in numbers. `P` is the machine's
parameters (spec/10_state.md R25); a statement about `execAt P` and `stepAt P` for every `P` holds of `exec` and `step` too, which are
these at `Config.params` (`ExecAndStepAreTheParametricMachineOfThisHardware`). -/

open Sys2Proof Sys2Proof.Machine

/-! ### Reset, invariant, reachable states -/

/-- R26, R150: the state after construction, field by field, and every byte of memory zero. The clause on `CUR_OP` rests on the
spec's decision D16 (log 5), the 20 of the one on `CYC` on D2 (R6; log 2), and the 0x10000 bytes of the last on D1 (R5; log 1). Then
the same for every parameters (R25): construction takes `INTERRUPT_PERIOD` and `CAPACITY` from its argument. -/
def Obligations.ResetLeavesTheSpecifiedState : Prop :=
  (State.reset.a = 0 ∧ State.reset.x = 0 ∧ State.reset.y = 0 ∧ State.reset.pc = 0 ∧ State.reset.sp = 0xFF ∧
  State.reset.flagC = false ∧ State.reset.flagZ = false ∧ State.reset.flagI = false ∧ State.reset.flagD = false ∧
  State.reset.flagV = false ∧ State.reset.flagN = false ∧ State.reset.curOp = 0 ∧ State.reset.cyc = 20 ∧
  ∀ addr, addr < 0x10000 → State.reset.mem.read Config.params addr = some 0) ∧
  ∀ P : Params, State.construct P = { State.reset with cyc := P.interruptPeriod } ∧
    ∀ addr, addr < P.capacity → (State.construct P).mem.read P addr = some 0

/-- The invariant holds after reset (the period that bounds `CYC` is 20 by the spec's decision D2, log 2), and after construction with
every parameters whose period is not negative. -/
def Obligations.InvariantHoldsAtReset : Prop :=
  MachineInv Config.params State.reset ∧ ∀ P : Params, 0 ≤ P.interruptPeriod → MachineInv P (State.construct P)

/-- A completed step, from any state with the invariant, keeps it: memory stays canonical, `SP` stays 0xFF and `CYC` stays between 0
and the period, 20 on this hardware (R161, R27). The figures of `BASE_CYCLES` and of the period are the spec's decisions D3 and D2
(log 2). With other parameters it holds when no charge, at most two above the base cycles, exceeds the period. -/
def Obligations.StepKeepsTheInvariant : Prop :=
  (∀ s t, MachineInv Config.params s → step s = .next t → MachineInv Config.params t) ∧
  ∀ P : Params, (∀ i : Instr, i.executable = true → (P.baseCycles i.opcode : Int) + 2 ≤ P.interruptPeriod) →
    ∀ s t, MachineInv P s → stepAt P s = .next t → MachineInv P t

/-- R16, R27: `SP` is 0xFF and memory in its canonical form after construction, and every move of the host, a step or a load, completed
or faulted, keeps both from any state, reached or not; so they hold in every state the host can reach. With every parameters. -/
def Obligations.ReachableStatesKeepSpAndCanonicalMemory : Prop :=
  ∀ P : Params,
    ((State.construct P).sp = 0xFF ∧ (State.construct P).mem.wf P) ∧
    (∀ s t, s.sp = 0xFF ∧ s.mem.wf P → HostMove P s t → t.sp = 0xFF ∧ t.mem.wf P) ∧
    ∀ s, Reachable P s → s.sp = 0xFF ∧ s.mem.wf P

/-! ### The memory controller and the host's operations -/

/-- R31, R133: a read below the capacity gives the array's byte, one at or above it faults with the address, state unchanged. -/
def Obligations.ReadFaultsExactlyOutOfRange : Prop :=
  ∀ (P : Params) (s : State) (addr : Nat),
    (addr < P.capacity → hostRead P addr s = .next (s.mem.get addr)) ∧
    (P.capacity ≤ addr → hostRead P addr s = .fault (.outOfRange addr s))

/-- R32, R40: a write below the capacity changes that one byte, which the next read gives back, and nothing else; one at or above
the capacity faults and writes nothing. -/
def Obligations.WriteChangesOneByte : Prop :=
  ∀ (P : Params) (s : State) (addr : Nat) (v : Byte), s.mem.wf P →
    (addr < P.capacity → ∃ t, hostWrite P addr v s = .next t ∧ t = { s with mem := t.mem } ∧
      t.mem.wf P ∧ hostRead P addr t = .next v ∧
      ∀ other, other ≠ addr → t.mem.read P other = s.mem.read P other) ∧
    (P.capacity ≤ addr → hostWrite P addr v s = .fault (.outOfRange addr s))

/-- R33, R134: a load that fits writes its bytes in order from the offset and nothing else; one that does not fit faults with the
offset and the length, and nothing has changed. -/
def Obligations.LoadIsAllOrNothing : Prop :=
  ∀ (P : Params) (s : State) (offset : Nat) (bytes : List Byte), s.mem.wf P →
    (offset ≤ P.capacity ∧ offset + bytes.length ≤ P.capacity → ∃ t, hostLoad P offset bytes s = .next t ∧
      t = { s with mem := t.mem } ∧ t.mem.wf P ∧
      (∀ k, (h : k < bytes.length) → t.mem.read P (offset + k) = some bytes[k]) ∧
      ∀ other, other < offset ∨ offset + bytes.length ≤ other → t.mem.read P other = s.mem.read P other) ∧
    (P.capacity < offset ∨ P.capacity < offset + bytes.length →
      hostLoad P offset bytes s = .fault (.invalidLoad offset bytes.length s))

/-- R34, R151: `clear` zeroes every byte and leaves everything else as it is. -/
def Obligations.ClearZeroesMemoryOnly : Prop :=
  ∀ (P : Params) (s : State), hostClear s = { s with mem := (hostClear s).mem } ∧
    ∀ addr, addr < P.capacity → (hostClear s).mem.read P addr = some 0

/-- R152: `load_program` loads, then sets `PC`, and changes nothing else; when the load faults `PC` is unchanged too, which is the
spec's decision D20 (log 16). -/
def Obligations.LoadProgramLoadsThenSetsPc : Prop :=
  ∀ (P : Params) (s t : State) (offset : BitVec 32) (bytes : List Byte) (initialPc : Word16),
    (hostLoad P offset.toNat bytes s = .next t → loadProgram P offset bytes initialPc s = .next { t with pc := initialPc }) ∧
    (P.capacity < offset.toNat + bytes.length →
      loadProgram P offset bytes initialPc s = .fault (.invalidLoad offset.toNat bytes.length s))

/-! ### Encoding -/

/-- One word or more of every family, written out from R52's table, decodes to its instruction (the byte values are the spec's
decisions D4 and D5, log 3). -/
def Obligations.OpcodeWordsOfEveryFamilyDecode : Prop :=
  decodeTableWord 16 0x0169 = some (.adc .immediate) ∧ decodeTableWord 24 0x123431 = some (.and .indirectIndexed) ∧
  decodeTableWord 24 0xFFF01E = some (.asl .absoluteX) ∧ decodeTableWord 8 0x6A = some (.ror .accumulator) ∧
  decodeTableWord 24 0x30002C = some (.bit .absolute) ∧ decodeTableWord 16 0x02C0 = some (.cpy .immediate) ∧
  decodeTableWord 16 0x10F6 = some (.inc .zeroPageX) ∧ decodeTableWord 8 0x88 = some .dey ∧
  decodeTableWord 16 0x0590 = some .bcc ∧ decodeTableWord 24 0x12344C = some .jmp ∧
  decodeTableWord 16 0x10B6 = some (.ldx .zeroPageY) ∧ decodeTableWord 24 0x03008C = some (.sty .absolute) ∧
  decodeTableWord 8 0x38 = some .sec ∧ decodeTableWord 8 0x00 = some .brk ∧ decodeTableWord 8 0xEA = some (.unsupported 0xEA)

/-- R48, R49, R51, R56: every well-formed instruction with any operand bytes of its format is read back from its bytes, whatever
follows. -/
def Obligations.DecodeOfEncodeGivesBackTheInstruction : Prop :=
  ∀ (i : Instr) (o : OperandBytes) (rest : List Byte), i.wf = true → o.fits i = true →
    decode (encode i o ++ rest) = .ok ⟨i, o, rest⟩

/-- The other direction: a byte sequence has at most one reading, which is well formed and encodes to those bytes. -/
def Obligations.EncodeOfDecodeGivesBackTheBytes : Prop :=
  ∀ (bytes : List Byte) (d : Decoded), decode bytes = .ok d →
    d.instr.wf = true ∧ d.operand.fits d.instr = true ∧ encode d.instr d.operand ++ d.rest = bytes

/-- R55, R56: the bytes that decode to an unsupported instruction are exactly the 128 of R55's list (log 3, log 13). -/
def Obligations.UnsupportedBytesAreExactlyTheListed : Prop :=
  ∀ b : Byte, (decodeOpcode b = .unsupported b ↔ b.toNat ∈ unsupportedBytes) ∧ unsupportedBytes.length = 128

/-! ### The step -/

/-- R60, R61, R63: with a readable opcode byte, a step is the handler of the decoded instruction at the state with `CUR_OP` written
and `PC` incremented modulo 0x10000, followed by one addition of the period to a negative `CYC`; a fault or refusal of the handler is
the step's. First for `step` and `exec`, then for every parameters. That `CUR_OP` is already written when the handler faults is the
spec's decision D14 (log 12). -/
def Obligations.StepRunsTheDecodedInstruction : Prop :=
  (∀ (s : State) (op : Byte), s.mem.read Config.params s.pc.toNat = some op →
    step s =
      match exec (decodeOpcode op) { s with curOp := op, pc := BitVec.ofNat 16 ((s.pc.toNat + 1) % 0x10000) } with
      | .next t => .next { t with cyc := if t.cyc < 0 then t.cyc + Config.interruptPeriod else t.cyc }
      | .fault r => .fault r
      | .refused r => .refused r) ∧
  ∀ (P : Params) (s : State) (op : Byte), s.mem.read P s.pc.toNat = some op →
    stepAt P s =
      match execAt P (decodeOpcode op) { s with curOp := op, pc := BitVec.ofNat 16 ((s.pc.toNat + 1) % 0x10000) } with
      | .next t => .next { t with cyc := if t.cyc < 0 then t.cyc + P.interruptPeriod else t.cyc }
      | .fault r => .fault r
      | .refused r => .refused r

/-- R46, R48, R49: when the bytes where a step fetches are those of a well-formed instruction `i` and its operand, the step runs
`i`. The first operand byte is read after `PC` wrapped, the second one above it without wrapping (decision D10, log 8). That `CUR_OP` is
already written when the handler faults is the spec's decision D14 (log 12). -/
def Obligations.StepRunsTheInstructionInMemory : Prop :=
  ∀ (P : Params) (s : State) (i : Instr) (o : OperandBytes), i.wf = true → o.fits i = true →
    s.mem.read P s.pc.toNat = some i.opcode →
    (∀ k, (h : k < o.bytes.length) → s.mem.read P ((s.pc.toNat + 1) % 0x10000 + k) = some o.bytes[k]) →
    let t : State := { s with curOp := i.opcode, pc := s.pc + 1 }
    (stepAt P s = andThen (execAt P i t) fun u => .next (replenish P u)) ∧
    (∀ b, o = .one b → resolve P .zeroPage t = .next ⟨b.toNat, 0⟩) ∧
    (∀ lo hi, o = .two lo hi → resolve P .absolute t = .next ⟨hi.toNat * 256 + lo.toNat, 0⟩)

/-- R63: the replenishment adds the period once when `CYC` is negative, and changes nothing otherwise. -/
def Obligations.ReplenishAddsOnceWhenNegative : Prop :=
  ∀ (P : Params) (s : State), (s.cyc < 0 → replenish P s = { s with cyc := s.cyc + P.interruptPeriod }) ∧
    (0 ≤ s.cyc → replenish P s = s)

/-- R76: `Finish` moves `PC` by `len - 1` modulo 0x10000 and debits `BASE_CYCLES` of the opcode byte, and changes nothing else. -/
def Obligations.FinishAdvancesPcAndChargesBaseCycles : Prop :=
  ∀ (P : Params) (i : Instr) (s : State), (finish P i s).pc.toNat = (s.pc.toNat + (i.length - 1)) % 0x10000 ∧
    (finish P i s).cyc = s.cyc - P.baseCycles i.opcode ∧ finish P i s = { s with pc := (finish P i s).pc, cyc := (finish P i s).cyc }

/-- R51: the length by addressing mode; an instruction that only faults counts as one byte (R57). The one-byte length of Implied and
Accumulator outside the flag group is the spec's decision D25 (log 4). -/
def Obligations.LengthIsAFunctionOfTheMode : Prop :=
  (∀ i : Instr, i.mode = some .implied ∨ i.mode = some .accumulator ∨ i.mode = none → i.length = 1) ∧
  (∀ i : Instr, i.mode = some .immediate ∨ i.mode = some .zeroPage ∨ i.mode = some .zeroPageX ∨ i.mode = some .zeroPageY ∨
    i.mode = some .indexedIndirect ∨ i.mode = some .indirectIndexed ∨ i.mode = some .relative → i.length = 2) ∧
  (∀ i : Instr, i.mode = some .absolute ∨ i.mode = some .absoluteX ∨ i.mode = some .absoluteY → i.length = 3) ∧
  ∀ i : Instr, i.mode ≠ some .indirect

/-- R53: the default `BASE_CYCLES` by instruction class and addressing mode. The source gives only the figures of the flag instructions
and the branches; the others rest on the spec's decision D3 (log 2). -/
def Obligations.BaseCyclesFollowTheClassTable : Prop :=
  ∀ (i : Instr) (mode : AddressingMode), i.mode = some mode →
    Config.params.baseCycles i.opcode =
      if i = .jmp then 3
      else match i.modifies, mode with
        | some _, .zeroPage => 5
        | some _, .zeroPageX => 6
        | some _, .absolute => 6
        | some _, .absoluteX => 7
        | none, .implied | none, .accumulator | none, .immediate | none, .relative => 2
        | none, .zeroPage => 3
        | none, .zeroPageX | none, .zeroPageY | none, .absolute | none, .absoluteX | none, .absoluteY => 4
        | none, .indexedIndirect => 6
        | none, .indirectIndexed => 5
        | _, _ => 0

/-! ### The address resolver -/

/-- R65: the two bytes at `PC` and `PC + 1`, low byte first, no penalty; the unwrapped second address, which faults at 0x10000, is
the spec's decision D10 (log 8); that the low byte is read first, so that the fault reports `PC` though `PC + 1` is out of range too, is
D17 (log 15). -/
def Obligations.AbsoluteIsTheLittleEndianOperand : Prop :=
  ∀ (P : Params) (s : State),
    (∀ lo hi, s.mem.read P s.pc.toNat = some lo → s.mem.read P (s.pc.toNat + 1) = some hi →
      resolve P .absolute s = .next ⟨hi.toNat * 256 + lo.toNat, 0⟩) ∧
    (P.capacity ≤ s.pc.toNat → resolve P .absolute s = .fault (.outOfRange s.pc.toNat s)) ∧
    (P.capacity = s.pc.toNat + 1 → resolve P .absolute s = .fault (.outOfRange (s.pc.toNat + 1) s))

/-- R66: base plus `X`; above 0xFFFF it wraps by 0x10000 and costs one cycle, but not when `CUR_OP` is 0x1E (that the exemption is
told by `CUR_OP` is the spec's decision D21, log 20). -/
def Obligations.AbsoluteXAddsXAndWraps : Prop :=
  ∀ (P : Params) (s : State) (base : Nat), resolve P .absolute s = .next ⟨base, 0⟩ →
    resolve P .absoluteX s =
      if 0xFFFF < base + s.x.toNat
      then .next ⟨base + s.x.toNat - 0x10000, if s.curOp = 0x1E then 0 else 1⟩
      else .next ⟨base + s.x.toNat, 0⟩

/-- R67: base plus `Y`; above 0xFFFF it wraps by 0x10000 and costs one cycle, with no exemption. -/
def Obligations.AbsoluteYAddsYAndWraps : Prop :=
  ∀ (P : Params) (s : State) (base : Nat), resolve P .absolute s = .next ⟨base, 0⟩ →
    resolve P .absoluteY s =
      if 0xFFFF < base + s.y.toNat then .next ⟨base + s.y.toNat - 0x10000, 1⟩ else .next ⟨base + s.y.toNat, 0⟩

/-- R69, R70: both zero-page indexed modes add `X`, never `Y`, modulo 256, no penalty. The wrap within the zero page is the spec's
decision D8 (log 8). -/
def Obligations.ZeroPageXAndYBothAddXModulo256 : Prop :=
  ∀ (P : Params) (s : State) (b : Byte), s.mem.read P s.pc.toNat = some b →
    resolve P .zeroPageX s = .next ⟨(b.toNat + s.x.toNat) % 256, 0⟩ ∧
    resolve P .zeroPageY s = .next ⟨(b.toNat + s.x.toNat) % 256, 0⟩

/-- R71: the pointer is at the operand byte plus `X` modulo 256 (decision D8, log 8), its high byte one above without wrapping (decision
D9, log 8). -/
def Obligations.IndexedIndirectReadsThePointerAtOperandPlusX : Prop :=
  ∀ (P : Params) (s : State) (b lo hi : Byte), s.mem.read P s.pc.toNat = some b →
    s.mem.read P ((b.toNat + s.x.toNat) % 256) = some lo → s.mem.read P ((b.toNat + s.x.toNat) % 256 + 1) = some hi →
    resolve P .indexedIndirect s = .next ⟨hi.toNat * 256 + lo.toNat, 0⟩

/-- R72: the pointer is at the operand byte, its high byte one above without wrapping (decision D9, log 8); `Y` is added, and a wrap
past 0xFFFF costs one cycle. -/
def Obligations.IndirectIndexedAddsYToThePointer : Prop :=
  ∀ (P : Params) (s : State) (b lo hi : Byte), s.mem.read P s.pc.toNat = some b →
    s.mem.read P b.toNat = some lo → s.mem.read P (b.toNat + 1) = some hi →
    resolve P .indirectIndexed s =
      if 0xFFFF < hi.toNat * 256 + lo.toNat + s.y.toNat
      then .next ⟨hi.toNat * 256 + lo.toNat + s.y.toNat - 0x10000, 1⟩
      else .next ⟨hi.toNat * 256 + lo.toNat + s.y.toNat, 0⟩

/-- R68, R73: ZeroPage is the operand byte itself; Immediate and Relative are `PC`, with no memory access; no penalty. -/
def Obligations.ZeroPageImmediateAndRelativeAddresses : Prop :=
  ∀ (P : Params) (s : State), (∀ b, s.mem.read P s.pc.toNat = some b → resolve P .zeroPage s = .next ⟨b.toNat, 0⟩) ∧
    (P.capacity ≤ s.pc.toNat → resolve P .zeroPage s = .fault (.outOfRange s.pc.toNat s)) ∧
    resolve P .immediate s = .next ⟨s.pc.toNat, 0⟩ ∧ resolve P .relative s = .next ⟨s.pc.toNat, 0⟩

/-- R64, R75 (a) to (c): the resolver gives a 16-bit address and one penalty cycle in exactly the three cases of an index sum above
0xFFFF, but for ASL AbsoluteX, which `CUR_OP` tells (decision D21, log 20). That the pointer's high byte is read one above the operand
byte without wrapping is decision D9 (log 8). -/
def Obligations.PenaltyOnlyOnIndexWrap : Prop :=
  ∀ (P : Params) (mode : AddressingMode) (s : State) (e : Resolved), resolve P mode s = .next e →
    e.addr ≤ 0xFFFF ∧ e.penalty ≤ 1 ∧
    (e.penalty = 1 ↔
      (mode = .absoluteX ∧ s.curOp ≠ 0x1E ∧
        ∃ base, resolve P .absolute s = .next ⟨base, 0⟩ ∧ 0xFFFF < base + s.x.toNat) ∨
      (mode = .absoluteY ∧ ∃ base, resolve P .absolute s = .next ⟨base, 0⟩ ∧ 0xFFFF < base + s.y.toNat) ∨
      (mode = .indirectIndexed ∧ ∃ b lo hi, s.mem.read P s.pc.toNat = some b ∧ s.mem.read P b.toNat = some lo ∧
        s.mem.read P (b.toNat + 1) = some hi ∧ 0xFFFF < hi.toNat * 256 + lo.toNat + s.y.toNat))

/-- R62 (a), (b), R77: a memory operand is the byte at the resolved address; a data read at or above the capacity faults with that
address, and what it leaves differs at most in `CYC`, by the penalty, and in the model's `openCount` (R139, U1; log 7). -/
def Obligations.OperandIsTheByteAtTheResolvedAddress : Prop :=
  ∀ (P : Params) (mode : AddressingMode) (s : State) (e : Resolved), resolve P mode s = .next e →
    (∀ v, s.mem.read P e.addr = some v → fetchOperand P mode s = .next ⟨e.addr, v, e.penalty⟩) ∧
    (P.capacity ≤ e.addr → ∃ t, fetchOperand P mode s = .fault (.outOfRange e.addr t) ∧
      t = { s with cyc := t.cyc, openCount := t.openCount } ∧ (t.cyc = s.cyc ∨ t.cyc = s.cyc - e.penalty))

/-! ### Arithmetic and logic -/

/-- R80, where the decimal result fits: binary or decimal sum, carry, overflow from the raw sum and the old `A`, zero and negative of
the new `A`. -/
def Obligations.AdcAddsMemoryAndCarry : Prop :=
  ∀ (P : Params) (m : AluMode) (s : State) (o : Operand), fetchOperand P m.tag s = .next o →
    let sum : Nat := o.value.toNat + s.a.toNat + (if s.flagC then 1 else 0)
    (s.flagD = true → sum ≤ 355) →
    let limit : Nat := if s.flagD then 99 else 255
    let r : Nat := if limit < sum then sum - (limit + 1) else sum
    execAt P (.adc m) s = .next (finish P (.adc m) { s with
      a := BitVec.ofNat 8 r
      flagC := decide (limit < sum)
      flagV := decide ((s.a.toNat ^^^ sum) &&& (o.value.toNat ^^^ sum) &&& 0x80 ≠ 0)
      flagZ := decide (r = 0)
      flagN := decide (127 < r)
      cyc := s.cyc - o.penalty })

/-- R82, the spec's decision D12 (log 10), the model's choice to follow it: a decimal sum above 355 leaves `sum - 100` modulo 256, with
carry set and zero and negative of the reduced value. -/
def Obligations.AdcDecimalAbove355ReducesModulo256 : Prop :=
  ∀ (P : Params) (m : AluMode) (s : State) (o : Operand), fetchOperand P m.tag s = .next o → s.flagD = true →
    let sum : Nat := o.value.toNat + s.a.toNat + (if s.flagC then 1 else 0)
    355 < sum →
    let r : Nat := sum - 356
    execAt P (.adc m) s = .next (finish P (.adc m) { s with
      a := BitVec.ofNat 8 r
      flagC := true
      flagV := decide ((s.a.toNat ^^^ sum) &&& (o.value.toNat ^^^ sum) &&& 0x80 ≠ 0)
      flagZ := decide (r = 0)
      flagN := decide (127 < r)
      cyc := s.cyc - o.penalty })

/-- R81: after ADC `V` is true exactly when bit 7 of the old `A` and of the operand agree and differ from bit 7 of the raw sum. -/
def Obligations.AdcOverflowIsSignedOverflow : Prop :=
  ∀ (P : Params) (m : AluMode) (s t : State) (o : Operand), fetchOperand P m.tag s = .next o → execAt P (.adc m) s = .next t →
    (t.flagV = true ↔ s.a.msb = o.value.msb ∧
      (BitVec.ofNat 8 (o.value.toNat + s.a.toNat + s.flagC.toNat)).msb ≠ s.a.msb)

/-- R83 to R86: AND, ORA and EOR combine `A` with the operand bit by bit and set zero and negative of the result; carry, overflow and
everything else stay. -/
def Obligations.LogicCombinesAccumulatorBitwise : Prop :=
  ∀ (P : Params) (m : AluMode) (s : State) (o : Operand), fetchOperand P m.tag s = .next o →
    let after (i : Instr) (r : Byte) : State :=
      finish P i { s with a := r, flagZ := decide (r.toNat = 0), flagN := decide (127 < r.toNat), cyc := s.cyc - o.penalty }
    execAt P (.and m) s = .next (after (.and m) (s.a &&& o.value)) ∧
    execAt P (.ora m) s = .next (after (.ora m) (s.a ||| o.value)) ∧
    execAt P (.eor m) s = .next (after (.eor m) (s.a ^^^ o.value))

/-! ### Shifts and rotates -/

/-- R87 to R91, Accumulator mode: the four results and carries as numbers; memory and everything else stay. -/
def Obligations.ShiftsOfTheAccumulator : Prop :=
  ∀ (P : Params) (s : State),
    let v := s.a.toNat
    let c := if s.flagC then 1 else 0
    let after (i : Instr) (r : Nat) (carry : Bool) : State :=
      finish P i { s with a := BitVec.ofNat 8 r, flagC := carry, flagZ := decide (r = 0), flagN := decide (127 < r) }
    execAt P (.asl .accumulator) s = .next (after (.asl .accumulator) (2 * v % 256) (decide (128 ≤ v))) ∧
    execAt P (.lsr .accumulator) s = .next (after (.lsr .accumulator) (v / 2) (decide (v % 2 = 1))) ∧
    execAt P (.rol .accumulator) s = .next (after (.rol .accumulator) (2 * v % 256 + c) (decide (128 ≤ v))) ∧
    execAt P (.ror .accumulator) s = .next (after (.ror .accumulator) (v / 2 + 128 * c) (decide (v % 2 = 1)))

/-- R87 to R91, the memory modes: the same results written to the operand's address; every other byte and everything else stays. -/
def Obligations.ShiftsOfMemory : Prop :=
  ∀ (P : Params) (m : ShiftMode) (s : State) (o : Operand), m ≠ .accumulator → fetchOperand P m.tag s = .next o → s.mem.wf P →
    let v := o.value.toNat
    let c := if s.flagC then 1 else 0
    let before (r : Nat) (carry : Bool) : State :=
      { s with flagC := carry, flagZ := decide (r = 0), flagN := decide (127 < r), cyc := s.cyc - o.penalty }
    let writes (i : Instr) (r : Nat) (carry : Bool) : Prop :=
      ∃ t, execAt P i s = .next t ∧ WroteByte P i (before r carry) o.addr (BitVec.ofNat 8 r) t
    writes (.asl m) (2 * v % 256) (decide (128 ≤ v)) ∧ writes (.lsr m) (v / 2) (decide (v % 2 = 1)) ∧
    writes (.rol m) (2 * v % 256 + c) (decide (128 ≤ v)) ∧ writes (.ror m) (v / 2 + 128 * c) (decide (v % 2 = 1))

/-! ### BIT and the compares -/

/-- R92: `V` and `N` are bits 6 and 7 of the operand, `Z` whether `A AND m` is zero; nothing else changes. -/
def Obligations.BitTestsTheOperand : Prop :=
  ∀ (P : Params) (m : BitMode) (s : State) (o : Operand), fetchOperand P m.tag s = .next o →
    execAt P (.bit m) s = .next (finish P (.bit m) { s with
      flagV := o.value.getLsbD 6, flagN := o.value.getLsbD 7
      flagZ := decide ((o.value &&& s.a).toNat = 0)
      cyc := s.cyc - o.penalty })

/-- R93 to R96: carry when the operand is at most the register, zero when they are equal; negative when the register is less or the
difference is above 127, which is the spec's decision D11 (log 9). Nothing else changes. -/
def Obligations.CompareSetsFlagsFromTheWrappedDifference : Prop :=
  ∀ (P : Params) (s : State) (o : Operand),
    let after (i : Instr) (r : Byte) : State :=
      finish P i { s with
        flagC := decide (o.value.toNat ≤ r.toNat), flagZ := decide (r = o.value)
        flagN := decide (r.toNat < o.value.toNat ∨ 127 < r.toNat - o.value.toNat), cyc := s.cyc - o.penalty }
    (∀ m : AluMode, fetchOperand P m.tag s = .next o → execAt P (.cmp m) s = .next (after (.cmp m) s.a)) ∧
    (∀ m : IndexCompareMode, fetchOperand P m.tag s = .next o →
      execAt P (.cpx m) s = .next (after (.cpx m) s.x) ∧ execAt P (.cpy m) s = .next (after (.cpy m) s.y))

/-! ### Increment and decrement -/

/-- R97 to R99: INC and DEC write the operand's byte plus or less one modulo 256 back to its address and set zero and negative of it;
carry, overflow, every other byte and everything else stay. -/
def Obligations.CountsOfMemory : Prop :=
  ∀ (P : Params) (m : CountMode) (s : State) (o : Operand), fetchOperand P m.tag s = .next o → s.mem.wf P →
    let writes (i : Instr) (r : Nat) : Prop :=
      ∃ t, execAt P i s = .next t ∧ WroteByte P i
        { s with flagZ := decide (r = 0), flagN := decide (127 < r), cyc := s.cyc - o.penalty } o.addr (BitVec.ofNat 8 r) t
    writes (.inc m) ((o.value.toNat + 1) % 256) ∧ writes (.dec m) ((o.value.toNat + 255) % 256)

/-- R97, R100 to R103: DEX, DEY, INX and INY count modulo 256 and set zero and negative of the new value; everything else stays. -/
def Obligations.CountsOfIndexRegisters : Prop :=
  ∀ (P : Params) (s : State),
    let up (v : Byte) : Nat := (v.toNat + 1) % 256
    let down (v : Byte) : Nat := (v.toNat + 255) % 256
    let zn (r : Nat) (t : State) : State := { t with flagZ := decide (r = 0), flagN := decide (127 < r) }
    execAt P .inx s = .next (finish P .inx (zn (up s.x) { s with x := BitVec.ofNat 8 (up s.x) })) ∧
    execAt P .dex s = .next (finish P .dex (zn (down s.x) { s with x := BitVec.ofNat 8 (down s.x) })) ∧
    execAt P .iny s = .next (finish P .iny (zn (up s.y) { s with y := BitVec.ofNat 8 (up s.y) })) ∧
    execAt P .dey s = .next (finish P .dey (zn (down s.y) { s with y := BitVec.ofNat 8 (down s.y) }))

/-! ### Control transfer -/

/-- R104 to R112: each branch has mode Relative, length 2 and default base cycles 2 and tests its own flag. Not taken, it reads nothing,
skips the offset byte and costs its base cycles; taken, it adds the sign-magnitude displacement to the address after the offset byte,
modulo 0x10000, and costs one cycle more, or two more when the raw target leaves 0 to 0xFFFF; taken with an unreadable offset byte, it
faults and changes nothing. Nothing else ever changes. -/
def Obligations.BranchesFollowTheirFlag : Prop :=
  ∀ (P : Params) (i : Instr) (s : State),
    (i.branchTest s ≠ none → i.mode = some .relative ∧ i.length = 2 ∧ Config.params.baseCycles i.opcode = 2) ∧
    (i.branchTest s = some false →
      execAt P i s = .next { s with
        pc := BitVec.ofNat 16 ((s.pc.toNat + 1) % 0x10000)
        cyc := s.cyc - P.baseCycles i.opcode }) ∧
    (i.branchTest s = some true → ∀ off, s.mem.read P s.pc.toNat = some off →
      let d : Int := if 127 < off.toNat then -((off.toNat % 128 : Nat) : Int) else (off.toNat : Int)
      let target : Int := (s.pc.toNat : Int) + d
      execAt P i s = .next { s with
        pc := BitVec.ofNat 16 ((target + 1) % 0x10000).toNat
        cyc := s.cyc - P.baseCycles i.opcode - (if 0 ≤ target ∧ target ≤ 0xFFFF then 1 else 2) }) ∧
    (i.branchTest s = some true → P.capacity ≤ s.pc.toNat → execAt P i s = .fault (.outOfRange s.pc.toNat s))

/-- R113: JMP puts the absolute operand in `PC`, debits its base cycles and changes nothing else. -/
def Obligations.JmpSetsPcToTheOperand : Prop :=
  ∀ (P : Params) (s : State) (lo hi : Byte), s.mem.read P s.pc.toNat = some lo → s.mem.read P (s.pc.toNat + 1) = some hi →
    execAt P .jmp s = .next { s with
      pc := BitVec.ofNat 16 (hi.toNat * 256 + lo.toNat), cyc := s.cyc - P.baseCycles Instr.jmp.opcode }

/-- R114 (a), R76: an instruction other than the branches and JMP leaves `PC` just past its operand bytes. -/
def Obligations.OnlyBranchesAndJmpTransferControl : Prop :=
  ∀ (P : Params) (i : Instr) (s t : State), i.transfersControl = false → execAt P i s = .next t →
    t.pc.toNat = (s.pc.toNat + (i.length - 1)) % 0x10000

/-! ### Loads, and the two "store" opcodes that load -/

/-- R115 to R118: LDA, LDX and LDY copy the operand into the register and set zero and negative of it; everything else stays. -/
def Obligations.LoadsCopyMemoryAndSetZeroNegative : Prop :=
  ∀ (P : Params) (s : State) (o : Operand),
    let u : State := { s with
      flagZ := decide (o.value.toNat = 0), flagN := decide (127 < o.value.toNat), cyc := s.cyc - o.penalty }
    (∀ m : AluMode, fetchOperand P m.tag s = .next o → execAt P (.lda m) s = .next (finish P (.lda m) { u with a := o.value })) ∧
    (∀ m : LdxMode, fetchOperand P m.tag s = .next o → execAt P (.ldx m) s = .next (finish P (.ldx m) { u with x := o.value })) ∧
    (∀ m : LdyMode, fetchOperand P m.tag s = .next o → execAt P (.ldy m) s = .next (finish P (.ldy m) { u with y := o.value }))

/-- R119, R120: STX and STY copy the operand INTO the register; no byte of memory is written; that no flag is written is the spec's
decision D13 (log 11). -/
def Obligations.StxAndStyCopyMemoryIntoTheRegister : Prop :=
  ∀ (P : Params) (s : State) (o : Operand),
    (∀ m : StxMode, fetchOperand P m.tag s = .next o →
      execAt P (.stx m) s = .next (finish P (.stx m) { s with x := o.value, cyc := s.cyc - o.penalty })) ∧
    (∀ m : StyMode, fetchOperand P m.tag s = .next o →
      execAt P (.sty m) s = .next (finish P (.sty m) { s with y := o.value, cyc := s.cyc - o.penalty }))

/-! ### Flag instructions and the instructions that only fault -/

/-- R121 to R128: the flag instructions have mode Implied, length 1 and default base cycles 2; each writes its one flag, debits its base
cycles and changes nothing else, in every state, with no memory access. -/
def Obligations.FlagInstructionsWriteOneFlag : Prop :=
  (∀ i ∈ [Instr.clc, .cld, .cli, .clv, .sec, .sed, .sei],
    i.mode = some .implied ∧ i.length = 1 ∧ Config.params.baseCycles i.opcode = 2) ∧
  ∀ (P : Params) (s : State),
    let after (i : Instr) : State := { s with cyc := s.cyc - P.baseCycles i.opcode }
    execAt P .clc s = .next { after .clc with flagC := false } ∧ execAt P .cld s = .next { after .cld with flagD := false } ∧
    execAt P .cli s = .next { after .cli with flagI := false } ∧ execAt P .clv s = .next { after .clv with flagV := false } ∧
    execAt P .sec s = .next { after .sec with flagC := true } ∧ execAt P .sed s = .next { after .sed with flagD := true } ∧
    execAt P .sei s = .next { after .sei with flagI := true }

/-- R129: a step whose byte is BRK's (decision D4, log 3) faults; `PC` and `CUR_OP` (D14, log 12) are written and nothing else. -/
def Obligations.BrkFaultsAsUnimplemented : Prop :=
  ∀ (P : Params) (s : State), s.mem.read P s.pc.toNat = some 0x00 →
    stepAt P s = .fault (.unimplemented 0x00
      { s with curOp := 0x00, pc := BitVec.ofNat 16 ((s.pc.toNat + 1) % 0x10000) })

/-- R129, R130, R54: BRK and the seven stack instructions fault as unimplemented with their own byte and change nothing more, in the
handler and in a step. That the seven raise this fault and not the other is the spec's decision D7 (C5; log 13), the byte of each of
the eight is D4 (log 3), and that the faulting step leaves `CUR_OP` written is D14 (log 12). -/
def Obligations.UnimplementedInstructionsFault : Prop :=
  ∀ (i : Instr) (b : Byte), (i, b) ∈ unimplementedInstructions → ∀ s : State,
    exec i s = .fault (.unimplemented b s) ∧ ∀ P : Params, execAt P i s = .fault (.unimplemented b s) ∧
    (s.mem.read P s.pc.toNat = some b → stepAt P s = .fault (.unimplemented b { s with curOp := b, pc := s.pc + 1 }))

/-- R131, R55: each of the 128 unsupported bytes faults with itself and changes nothing but `PC` and `CUR_OP`, in the handler and in a
step. That the 23 documented 6502 opcodes among them are unsupported is the spec's decision D6 (log 13), which byte values are listed
rests on D4 (log 3), and that the faulting step leaves `CUR_OP` written is D14 (log 12). -/
def Obligations.UnsupportedBytesFault : Prop :=
  ∀ (b : Byte), b.toNat ∈ unsupportedBytes → ∀ s : State,
    exec (.unsupported b) s = .fault (.unsupportedOpcode b s) ∧
    ∀ P : Params, execAt P (.unsupported b) s = .fault (.unsupportedOpcode b s) ∧
    (s.mem.read P s.pc.toNat = some b → stepAt P s = .fault (.unsupportedOpcode b { s with curOp := b, pc := s.pc + 1 }))

/-! ### Faults -/

/-- R133, R139: when the opcode cannot be fetched the step faults with `PC` and nothing has changed. -/
def Obligations.OpcodeFetchOutOfRangeChangesNothing : Prop :=
  ∀ (P : Params) (s : State), P.capacity ≤ s.pc.toNat → stepAt P s = .fault (.outOfRange s.pc.toNat s)

/-- R78, R138, R139: whatever fault a step raises, what it leaves is the state before it with at most `CUR_OP` and `PC` written by the
fetch and one penalty cycle debited (and the model's `openCount`, log 7); no register, flag or memory byte changes; and a step
never raises the host's `InvalidLoad`. Rests on the spec's decision D14 (log 12). -/
def Obligations.FaultingStepChangesNoRegisterFlagOrMemory : Prop :=
  ∀ (P : Params) (s : State) (r : Fault), stepAt P s = .fault r →
    (r = .outOfRange s.pc.toNat s ∧ P.capacity ≤ s.pc.toNat) ∨
    ∃ op, s.mem.read P s.pc.toNat = some op ∧
      r.after = { s with curOp := op, pc := s.pc + 1, cyc := r.after.cyc, openCount := r.after.openCount } ∧
      ((r = .unimplemented op r.after ∧ r.after.cyc = s.cyc ∧ r.after.openCount = s.openCount) ∨
        (r = .unsupportedOpcode op r.after ∧ r.after.cyc = s.cyc ∧ r.after.openCount = s.openCount) ∨
        ∃ addr, r = .outOfRange addr r.after ∧ P.capacity ≤ addr ∧
          (r.after.cyc = s.cyc ∨ r.after.cyc = s.cyc - 1))

/-- No step is refused: every byte is executable, unimplemented or unsupported (R56, R61). -/
def Obligations.StepNeverRefuses : Prop :=
  ∀ (P : Params) (s : State) (r : Refusal), stepAt P s ≠ .refused r ∧ step s ≠ .refused r

/-- R158, R65: a three-byte instruction whose opcode byte is at 0xFFFE faults on its high operand byte at 0x10000 in a 64 KiB memory;
one at 0xFFFF other than JMP completes with `PC` past its operand bytes at 0 and 1 (JMP: `JmpSetsPcToTheOperand`). Rests on the spec's
decision D10 (log 8); that the fault leaves `CUR_OP` written is D14 (log 12). -/
def Obligations.ThreeByteInstructionAtTheTopOfMemory : Prop :=
  ∀ (P : Params) (s : State) (op : Byte), P.capacity = 0x10000 → s.mem.read P s.pc.toNat = some op →
    (decodeOpcode op).length = 3 →
    (s.pc = 0xFFFE → stepAt P s = .fault (.outOfRange 0x10000 { s with curOp := op, pc := 0xFFFF })) ∧
    (s.pc = 0xFFFF → (decodeOpcode op).transfersControl = false → ∃ t, stepAt P s = .next t ∧ t.pc = 0x0002)

/-- Every form of every executable instruction completes when all 64 KiB are backed, as they are on this hardware (decision D1, log 1),
and its high operand byte, if it has one, does not lie at 0x10000 (R36, R56, R78). -/
def Obligations.EveryExecutableInstructionCompletes : Prop :=
  ∀ (i : Instr) (s : State), i.executable = true → (i.length = 3 → s.pc ≠ 0xFFFF) →
    (∃ t, exec i s = .next t) ∧ ∀ P : Params, 0x10000 ≤ P.capacity → ∃ t, execAt P i s = .next t

/-! ### Who writes what -/

/-- R14: a register is written only by the instructions of its row, in the forms of its row. -/
def Obligations.RegistersHaveNoOtherWriters : Prop :=
  ∀ (P : Params) (i : Instr) (s t : State), execAt P i s = .next t →
    (i.writesA = false → t.a = s.a) ∧ (i.writesX = false → t.x = s.x) ∧ (i.writesY = false → t.y = s.y) ∧
    t.sp = s.sp ∧ t.curOp = s.curOp

/-- R18: a flag is written only by the instructions of its row; STX and STY write none (the spec's decision D13, log 11). -/
def Obligations.FlagsHaveNoOtherWriters : Prop :=
  ∀ (P : Params) (i : Instr) (s t : State), execAt P i s = .next t →
    (i.writesC = false → t.flagC = s.flagC) ∧ (i.writesZN = false → t.flagZ = s.flagZ ∧ t.flagN = s.flagN) ∧
    (i.writesI = false → t.flagI = s.flagI) ∧ (i.writesD = false → t.flagD = s.flagD) ∧
    (i.writesV = false → t.flagV = s.flagV)

/-- R39, R42: only a read-modify-write form writes memory, and it writes only the byte its operand was read from. -/
def Obligations.OnlyReadModifyWriteChangesMemory : Prop :=
  ∀ (P : Params) (i : Instr) (s t : State), execAt P i s = .next t →
    (i.modifies = none → t.mem = s.mem) ∧
    (∀ mode o, i.modifies = some mode → fetchOperand P mode s = .next o →
      ∀ addr, addr ≠ o.addr → t.mem.read P addr = s.mem.read P addr)

/-- R160, R63: a completed step charges `BASE_CYCLES` of its opcode byte and at most one cycle more, at most two more for a branch, then
adds the period once if the budget is negative. With the default `BASE_CYCLES` (decision D3, log 2) the charge is 2 to 8. -/
def Obligations.StepChargesTwoToEightCycles : Prop :=
  ∀ (P : Params) (s t : State), stepAt P s = .next t → ∃ (op : Byte) (extra : Nat),
    s.mem.read P s.pc.toNat = some op ∧ extra ≤ 2 ∧ (extra = 2 → (decodeOpcode op).mode = some .relative) ∧
    let k : Int := P.baseCycles op + extra
    t.cyc = (if s.cyc - k < 0 then s.cyc - k + P.interruptPeriod else s.cyc - k) ∧
    (P.baseCycles = Config.params.baseCycles → 2 ≤ k ∧ k ≤ 8)

/-! ### What influences nothing -/

/-- R16: no instruction reads or writes `SP`: any step with another `SP` is the same step with that `SP`. -/
def Obligations.SpIsNeitherReadNorWritten : Prop :=
  ∀ (P : Params) (s : State) (v : Byte), stepAt P { s with sp := v } = mapOutcome (fun t => { t with sp := v }) (stepAt P s)

/-- R159: no control decision, register, flag or memory byte depends on `CYC`, on `BASE_CYCLES` or on `INTERRUPT_PERIOD`: two states
that differ only in `CYC`, on two machines that differ only in these two parameters, have outcomes that differ only in `CYC`. -/
def Obligations.CycInfluencesNothingElse : Prop :=
  ∀ (P Q : Params) (s : State) (c : Int), P.capacity = Q.capacity →
    mapOutcome (fun t => { t with cyc := 0 }) (stepAt P { s with cyc := c }) =
      mapOutcome (fun t => { t with cyc := 0 }) (stepAt Q s)

/-- R18, R124, R141: the interrupt-disable flag is read by nothing: two states that differ only in it have outcomes that differ at
most in it. -/
def Obligations.InterruptDisableInfluencesNothingElse : Prop :=
  ∀ (P : Params) (s : State) (b : Bool),
    mapOutcome (fun t => { t with flagI := false }) (stepAt P { s with flagI := b }) =
      mapOutcome (fun t => { t with flagI := false }) (stepAt P s)

/-! ### The parameters -/

/-- R25, R5 to R7: the machine the host runs is the one with its parameters as an argument, given those of this hardware: `exec`, `step`
and `State.reset` are `execAt`, `stepAt` and `State.construct` at `Config.params`, whose capacity is 0x10000 (decision D1, log 1) and
whose period is 20 (D2, log 2). -/
def Obligations.ExecAndStepAreTheParametricMachineOfThisHardware : Prop :=
  (∀ i s, exec i s = execAt Config.params i s) ∧ (∀ s, step s = stepAt Config.params s) ∧
  State.reset = State.construct Config.params ∧ Config.params.capacity = 0x10000 ∧ Config.params.interruptPeriod = 20
end

