-- ==== Sys2Proof/Laws/Decode.lean ====
section
/-! SUPPORT. Decoding and encoding: the decoder and the encoder, transcribed from two tables of spec/30_encoding.md R52, agree on
every opcode byte; and the small facts about instruction length. -/

namespace Sys2Proof

/-- The byte an instruction was decoded from is its opcode byte. -/
theorem opcode_decodeOpcode (b : Byte) : (decodeOpcode b).opcode = b := by
  revert b; decide +kernel

/-- Every opcode byte decodes to a row of the table. -/
theorem decodeOpcode_wf (b : Byte) : (decodeOpcode b).wf = true := by
  revert b; decide +kernel

/-- A byte that R55 lists as unsupported decodes to itself. -/
theorem decodeOpcode_unsupported {b : Byte} (h : unsupportedBytes.contains b.toNat = true) :
    decodeOpcode b = .unsupported b := by
  revert b; decide +kernel

/-- Operand counts are 0, 1 or 2 (R49). -/
theorem operandCount_le (i : Instr) : i.operandCount ≤ 2 := by
  unfold Instr.operandCount
  split
  · rename_i t _; cases t <;> decide
  · exact Nat.zero_le _

@[simp] theorem length_sub_one (i : Instr) : i.length - 1 = i.operandCount := rfl

theorem littleEndian_lt (lo hi : Byte) : littleEndian lo hi < 0x10000 := by
  have := lo.isLt; have := hi.isLt; unfold littleEndian; omega

/-- Decoding takes off the opcode byte and as many operand bytes as its mode has. -/
theorem decode_cons (op : Byte) (o : OperandBytes) (rest : List Byte) (h : o.bytes.length = (decodeOpcode op).operandCount) :
    decode (op :: o.bytes ++ rest) = .ok ⟨decodeOpcode op, o, rest⟩ := by
  cases o <;> simp only [OperandBytes.bytes, List.length_cons, List.length_nil] at h <;>
    simp [decode, OperandBytes.bytes, ← h]

/-- What a successful decoding says of the bytes. -/
theorem decode_eq_ok {bytes : List Byte} {d : Decoded} (h : decode bytes = .ok d) :
    ∃ op, bytes = op :: d.operand.bytes ++ d.rest ∧ d.instr = decodeOpcode op ∧ d.operand.fits d.instr = true := by
  cases bytes with
  | nil => simp [decode] at h
  | cons op tail =>
    refine ⟨op, ?_⟩
    simp only [decode] at h
    split at h <;> simp only [Except.ok.injEq, reduceCtorEq] at h <;> subst h <;>
      simp_all [OperandBytes.bytes, OperandBytes.fits]

end Sys2Proof
end

