-- ==== Sys2Proof/Laws/PerInstr.lean ====
section
/-! SUPPORT. The family `RoundTrip`: decoding the opcode byte of a well-formed instruction gives the instruction back, one lemma per
constructor of `Instr`. -/

namespace Sys2Proof.Laws.RoundTrip

/-- The opcode byte of a well-formed instruction decodes to it. -/
def Statement (i : Instr) : Prop := i.wf = true → decodeOpcode i.opcode = i

theorem adc (m : AluMode) : Statement (.adc m) := fun _ => by cases m <;> rfl
theorem and (m : AluMode) : Statement (.and m) := fun _ => by cases m <;> rfl
theorem ora (m : AluMode) : Statement (.ora m) := fun _ => by cases m <;> rfl
theorem eor (m : AluMode) : Statement (.eor m) := fun _ => by cases m <;> rfl
theorem asl (m : ShiftMode) : Statement (.asl m) := fun _ => by cases m <;> rfl
theorem lsr (m : ShiftMode) : Statement (.lsr m) := fun _ => by cases m <;> rfl
theorem rol (m : ShiftMode) : Statement (.rol m) := fun _ => by cases m <;> rfl
theorem ror (m : ShiftMode) : Statement (.ror m) := fun _ => by cases m <;> rfl
theorem bit (m : BitMode) : Statement (.bit m) := fun _ => by cases m <;> rfl
theorem cmp (m : AluMode) : Statement (.cmp m) := fun _ => by cases m <;> rfl
theorem cpx (m : IndexCompareMode) : Statement (.cpx m) := fun _ => by cases m <;> rfl
theorem cpy (m : IndexCompareMode) : Statement (.cpy m) := fun _ => by cases m <;> rfl
theorem dec (m : CountMode) : Statement (.dec m) := fun _ => by cases m <;> rfl
theorem inc (m : CountMode) : Statement (.inc m) := fun _ => by cases m <;> rfl
theorem dex : Statement .dex := fun _ => rfl
theorem dey : Statement .dey := fun _ => rfl
theorem inx : Statement .inx := fun _ => rfl
theorem iny : Statement .iny := fun _ => rfl
theorem bcc : Statement .bcc := fun _ => rfl
theorem bcs : Statement .bcs := fun _ => rfl
theorem beq : Statement .beq := fun _ => rfl
theorem bne : Statement .bne := fun _ => rfl
theorem bmi : Statement .bmi := fun _ => rfl
theorem bpl : Statement .bpl := fun _ => rfl
theorem bvc : Statement .bvc := fun _ => rfl
theorem bvs : Statement .bvs := fun _ => rfl
theorem jmp : Statement .jmp := fun _ => rfl
theorem lda (m : AluMode) : Statement (.lda m) := fun _ => by cases m <;> rfl
theorem ldx (m : LdxMode) : Statement (.ldx m) := fun _ => by cases m <;> rfl
theorem ldy (m : LdyMode) : Statement (.ldy m) := fun _ => by cases m <;> rfl
theorem stx (m : StxMode) : Statement (.stx m) := fun _ => by cases m <;> rfl
theorem sty (m : StyMode) : Statement (.sty m) := fun _ => by cases m <;> rfl
theorem clc : Statement .clc := fun _ => rfl
theorem cld : Statement .cld := fun _ => rfl
theorem cli : Statement .cli := fun _ => rfl
theorem clv : Statement .clv := fun _ => rfl
theorem sec : Statement .sec := fun _ => rfl
theorem sed : Statement .sed := fun _ => rfl
theorem sei : Statement .sei := fun _ => rfl
theorem brk : Statement .brk := fun _ => rfl
theorem jsr : Statement .jsr := fun _ => rfl
theorem rts : Statement .rts := fun _ => rfl
theorem rti : Statement .rti := fun _ => rfl
theorem pha : Statement .pha := fun _ => rfl
theorem pla : Statement .pla := fun _ => rfl
theorem php : Statement .php := fun _ => rfl
theorem plp : Statement .plp := fun _ => rfl
theorem unsupported (b : Byte) : Statement (.unsupported b) := fun h => decodeOpcode_unsupported h

end Sys2Proof.Laws.RoundTrip

namespace Sys2Proof

/-- The opcode byte of a well-formed instruction decodes to it, whichever it is. -/
theorem decodeOpcode_opcode {i : Instr} (h : i.wf = true) : decodeOpcode i.opcode = i := by
  cases i with
  | unsupported b => exact Laws.RoundTrip.unsupported b h
  | _ => first | rfl | (rename_i m; cases m <;> rfl)

end Sys2Proof
end

