-- ==== Sys2Proof/Laws/State.lean ====
section
/-! SUPPORT. What each named update of the state does to each field, once, so that no later proof unfolds one. -/

namespace Sys2Proof.Machine

variable (P : Params) (s : State)

/-! ### The updates of Ops, Flags, Operands and Control -/

/-! #### `finish` -/

@[simp] theorem finish_a (i : Instr) : (finish P i s).a = s.a := rfl
@[simp] theorem finish_x (i : Instr) : (finish P i s).x = s.x := rfl
@[simp] theorem finish_y (i : Instr) : (finish P i s).y = s.y := rfl
@[simp] theorem finish_pc (i : Instr) : (finish P i s).pc = s.pc + BitVec.ofNat 16 (i.length - 1) := rfl
@[simp] theorem finish_sp (i : Instr) : (finish P i s).sp = s.sp := rfl
@[simp] theorem finish_flagC (i : Instr) : (finish P i s).flagC = s.flagC := rfl
@[simp] theorem finish_flagZ (i : Instr) : (finish P i s).flagZ = s.flagZ := rfl
@[simp] theorem finish_flagI (i : Instr) : (finish P i s).flagI = s.flagI := rfl
@[simp] theorem finish_flagD (i : Instr) : (finish P i s).flagD = s.flagD := rfl
@[simp] theorem finish_flagV (i : Instr) : (finish P i s).flagV = s.flagV := rfl
@[simp] theorem finish_flagN (i : Instr) : (finish P i s).flagN = s.flagN := rfl
@[simp] theorem finish_curOp (i : Instr) : (finish P i s).curOp = s.curOp := rfl
@[simp] theorem finish_cyc (i : Instr) : (finish P i s).cyc = s.cyc - (P.baseCycles i.opcode : Int) := rfl
@[simp] theorem finish_mem (i : Instr) : (finish P i s).mem = s.mem := rfl
@[simp] theorem finish_openCount (i : Instr) : (finish P i s).openCount = s.openCount := rfl

/-! #### `setZN` -/

@[simp] theorem setZN_a (v : Byte) : (setZN v s).a = s.a := rfl
@[simp] theorem setZN_x (v : Byte) : (setZN v s).x = s.x := rfl
@[simp] theorem setZN_y (v : Byte) : (setZN v s).y = s.y := rfl
@[simp] theorem setZN_pc (v : Byte) : (setZN v s).pc = s.pc := rfl
@[simp] theorem setZN_sp (v : Byte) : (setZN v s).sp = s.sp := rfl
@[simp] theorem setZN_flagC (v : Byte) : (setZN v s).flagC = s.flagC := rfl
@[simp] theorem setZN_flagZ (v : Byte) : (setZN v s).flagZ = isZero v := rfl
@[simp] theorem setZN_flagI (v : Byte) : (setZN v s).flagI = s.flagI := rfl
@[simp] theorem setZN_flagD (v : Byte) : (setZN v s).flagD = s.flagD := rfl
@[simp] theorem setZN_flagV (v : Byte) : (setZN v s).flagV = s.flagV := rfl
@[simp] theorem setZN_flagN (v : Byte) : (setZN v s).flagN = isNegative v := rfl
@[simp] theorem setZN_curOp (v : Byte) : (setZN v s).curOp = s.curOp := rfl
@[simp] theorem setZN_cyc (v : Byte) : (setZN v s).cyc = s.cyc := rfl
@[simp] theorem setZN_mem (v : Byte) : (setZN v s).mem = s.mem := rfl
@[simp] theorem setZN_openCount (v : Byte) : (setZN v s).openCount = s.openCount := rfl

/-! #### `setShiftFlags` -/

@[simp] theorem setShiftFlags_a (r : Byte × Bool) : (setShiftFlags r s).a = s.a := rfl
@[simp] theorem setShiftFlags_x (r : Byte × Bool) : (setShiftFlags r s).x = s.x := rfl
@[simp] theorem setShiftFlags_y (r : Byte × Bool) : (setShiftFlags r s).y = s.y := rfl
@[simp] theorem setShiftFlags_pc (r : Byte × Bool) : (setShiftFlags r s).pc = s.pc := rfl
@[simp] theorem setShiftFlags_sp (r : Byte × Bool) : (setShiftFlags r s).sp = s.sp := rfl
@[simp] theorem setShiftFlags_flagC (r : Byte × Bool) : (setShiftFlags r s).flagC = r.2 := rfl
@[simp] theorem setShiftFlags_flagZ (r : Byte × Bool) : (setShiftFlags r s).flagZ = isZero r.1 := rfl
@[simp] theorem setShiftFlags_flagI (r : Byte × Bool) : (setShiftFlags r s).flagI = s.flagI := rfl
@[simp] theorem setShiftFlags_flagD (r : Byte × Bool) : (setShiftFlags r s).flagD = s.flagD := rfl
@[simp] theorem setShiftFlags_flagV (r : Byte × Bool) : (setShiftFlags r s).flagV = s.flagV := rfl
@[simp] theorem setShiftFlags_flagN (r : Byte × Bool) : (setShiftFlags r s).flagN = isNegative r.1 := rfl
@[simp] theorem setShiftFlags_curOp (r : Byte × Bool) : (setShiftFlags r s).curOp = s.curOp := rfl
@[simp] theorem setShiftFlags_cyc (r : Byte × Bool) : (setShiftFlags r s).cyc = s.cyc := rfl
@[simp] theorem setShiftFlags_mem (r : Byte × Bool) : (setShiftFlags r s).mem = s.mem := rfl
@[simp] theorem setShiftFlags_openCount (r : Byte × Bool) : (setShiftFlags r s).openCount = s.openCount := rfl

/-! #### `setAccumulator` -/

@[simp] theorem setAccumulator_a (v : Byte) : (setAccumulator v s).a = v := rfl
@[simp] theorem setAccumulator_x (v : Byte) : (setAccumulator v s).x = s.x := rfl
@[simp] theorem setAccumulator_y (v : Byte) : (setAccumulator v s).y = s.y := rfl
@[simp] theorem setAccumulator_pc (v : Byte) : (setAccumulator v s).pc = s.pc := rfl
@[simp] theorem setAccumulator_sp (v : Byte) : (setAccumulator v s).sp = s.sp := rfl
@[simp] theorem setAccumulator_flagC (v : Byte) : (setAccumulator v s).flagC = s.flagC := rfl
@[simp] theorem setAccumulator_flagZ (v : Byte) : (setAccumulator v s).flagZ = isZero v := rfl
@[simp] theorem setAccumulator_flagI (v : Byte) : (setAccumulator v s).flagI = s.flagI := rfl
@[simp] theorem setAccumulator_flagD (v : Byte) : (setAccumulator v s).flagD = s.flagD := rfl
@[simp] theorem setAccumulator_flagV (v : Byte) : (setAccumulator v s).flagV = s.flagV := rfl
@[simp] theorem setAccumulator_flagN (v : Byte) : (setAccumulator v s).flagN = isNegative v := rfl
@[simp] theorem setAccumulator_curOp (v : Byte) : (setAccumulator v s).curOp = s.curOp := rfl
@[simp] theorem setAccumulator_cyc (v : Byte) : (setAccumulator v s).cyc = s.cyc := rfl
@[simp] theorem setAccumulator_mem (v : Byte) : (setAccumulator v s).mem = s.mem := rfl
@[simp] theorem setAccumulator_openCount (v : Byte) : (setAccumulator v s).openCount = s.openCount := rfl

/-! #### `addWithCarry` -/

@[simp] theorem addWithCarry_a (m : Byte) : (addWithCarry m s).a = adcValue s.flagD (adcSum s.a m s.flagC) := rfl
@[simp] theorem addWithCarry_x (m : Byte) : (addWithCarry m s).x = s.x := rfl
@[simp] theorem addWithCarry_y (m : Byte) : (addWithCarry m s).y = s.y := rfl
@[simp] theorem addWithCarry_pc (m : Byte) : (addWithCarry m s).pc = s.pc := rfl
@[simp] theorem addWithCarry_sp (m : Byte) : (addWithCarry m s).sp = s.sp := rfl
@[simp] theorem addWithCarry_flagC (m : Byte) : (addWithCarry m s).flagC = adcCarry s.flagD (adcSum s.a m s.flagC) := rfl
@[simp] theorem addWithCarry_flagZ (m : Byte) : (addWithCarry m s).flagZ = isZero (adcValue s.flagD (adcSum s.a m s.flagC)) := rfl
@[simp] theorem addWithCarry_flagI (m : Byte) : (addWithCarry m s).flagI = s.flagI := rfl
@[simp] theorem addWithCarry_flagD (m : Byte) : (addWithCarry m s).flagD = s.flagD := rfl
@[simp] theorem addWithCarry_flagV (m : Byte) : (addWithCarry m s).flagV = adcOverflow s.a m (adcSum s.a m s.flagC) := rfl
@[simp] theorem addWithCarry_flagN (m : Byte) : (addWithCarry m s).flagN = isNegative (adcValue s.flagD (adcSum s.a m s.flagC)) := rfl
@[simp] theorem addWithCarry_curOp (m : Byte) : (addWithCarry m s).curOp = s.curOp := rfl
@[simp] theorem addWithCarry_cyc (m : Byte) : (addWithCarry m s).cyc = s.cyc := rfl
@[simp] theorem addWithCarry_mem (m : Byte) : (addWithCarry m s).mem = s.mem := rfl
@[simp] theorem addWithCarry_openCount (m : Byte) : (addWithCarry m s).openCount = s.openCount := rfl

/-! #### `bitTest` -/

@[simp] theorem bitTest_a (m : Byte) : (bitTest m s).a = s.a := rfl
@[simp] theorem bitTest_x (m : Byte) : (bitTest m s).x = s.x := rfl
@[simp] theorem bitTest_y (m : Byte) : (bitTest m s).y = s.y := rfl
@[simp] theorem bitTest_pc (m : Byte) : (bitTest m s).pc = s.pc := rfl
@[simp] theorem bitTest_sp (m : Byte) : (bitTest m s).sp = s.sp := rfl
@[simp] theorem bitTest_flagC (m : Byte) : (bitTest m s).flagC = s.flagC := rfl
@[simp] theorem bitTest_flagZ (m : Byte) : (bitTest m s).flagZ = isZero (m &&& s.a) := rfl
@[simp] theorem bitTest_flagI (m : Byte) : (bitTest m s).flagI = s.flagI := rfl
@[simp] theorem bitTest_flagD (m : Byte) : (bitTest m s).flagD = s.flagD := rfl
@[simp] theorem bitTest_flagV (m : Byte) : (bitTest m s).flagV = m.getLsbD 6 := rfl
@[simp] theorem bitTest_flagN (m : Byte) : (bitTest m s).flagN = m.getLsbD 7 := rfl
@[simp] theorem bitTest_curOp (m : Byte) : (bitTest m s).curOp = s.curOp := rfl
@[simp] theorem bitTest_cyc (m : Byte) : (bitTest m s).cyc = s.cyc := rfl
@[simp] theorem bitTest_mem (m : Byte) : (bitTest m s).mem = s.mem := rfl
@[simp] theorem bitTest_openCount (m : Byte) : (bitTest m s).openCount = s.openCount := rfl

/-! #### `compareFlags` -/

@[simp] theorem compareFlags_a (r m : Byte) : (compareFlags r m s).a = s.a := rfl
@[simp] theorem compareFlags_x (r m : Byte) : (compareFlags r m s).x = s.x := rfl
@[simp] theorem compareFlags_y (r m : Byte) : (compareFlags r m s).y = s.y := rfl
@[simp] theorem compareFlags_pc (r m : Byte) : (compareFlags r m s).pc = s.pc := rfl
@[simp] theorem compareFlags_sp (r m : Byte) : (compareFlags r m s).sp = s.sp := rfl
@[simp] theorem compareFlags_flagC (r m : Byte) : (compareFlags r m s).flagC = decide (m.toNat ≤ r.toNat) := rfl
@[simp] theorem compareFlags_flagZ (r m : Byte) : (compareFlags r m s).flagZ = decide (compareDiff r m = 0) := rfl
@[simp] theorem compareFlags_flagI (r m : Byte) : (compareFlags r m s).flagI = s.flagI := rfl
@[simp] theorem compareFlags_flagD (r m : Byte) : (compareFlags r m s).flagD = s.flagD := rfl
@[simp] theorem compareFlags_flagV (r m : Byte) : (compareFlags r m s).flagV = s.flagV := rfl
@[simp] theorem compareFlags_flagN (r m : Byte) : (compareFlags r m s).flagN = decide (127 < compareDiff r m) := rfl
@[simp] theorem compareFlags_curOp (r m : Byte) : (compareFlags r m s).curOp = s.curOp := rfl
@[simp] theorem compareFlags_cyc (r m : Byte) : (compareFlags r m s).cyc = s.cyc := rfl
@[simp] theorem compareFlags_mem (r m : Byte) : (compareFlags r m s).mem = s.mem := rfl
@[simp] theorem compareFlags_openCount (r m : Byte) : (compareFlags r m s).openCount = s.openCount := rfl

/-! #### `takeBranch` -/

@[simp] theorem takeBranch_a (off : Byte) : (takeBranch off s).a = s.a := rfl
@[simp] theorem takeBranch_x (off : Byte) : (takeBranch off s).x = s.x := rfl
@[simp] theorem takeBranch_y (off : Byte) : (takeBranch off s).y = s.y := rfl
@[simp] theorem takeBranch_pc (off : Byte) : (takeBranch off s).pc = BitVec.ofInt 16 (wrap16 ((s.pc.toNat : Int) + branchDisplacement off)) := rfl
@[simp] theorem takeBranch_sp (off : Byte) : (takeBranch off s).sp = s.sp := rfl
@[simp] theorem takeBranch_flagC (off : Byte) : (takeBranch off s).flagC = s.flagC := rfl
@[simp] theorem takeBranch_flagZ (off : Byte) : (takeBranch off s).flagZ = s.flagZ := rfl
@[simp] theorem takeBranch_flagI (off : Byte) : (takeBranch off s).flagI = s.flagI := rfl
@[simp] theorem takeBranch_flagD (off : Byte) : (takeBranch off s).flagD = s.flagD := rfl
@[simp] theorem takeBranch_flagV (off : Byte) : (takeBranch off s).flagV = s.flagV := rfl
@[simp] theorem takeBranch_flagN (off : Byte) : (takeBranch off s).flagN = s.flagN := rfl
@[simp] theorem takeBranch_curOp (off : Byte) : (takeBranch off s).curOp = s.curOp := rfl
@[simp] theorem takeBranch_cyc (off : Byte) : (takeBranch off s).cyc = s.cyc - (if leavesRange ((s.pc.toNat : Int) + branchDisplacement off) then 2 else 1) := rfl
@[simp] theorem takeBranch_mem (off : Byte) : (takeBranch off s).mem = s.mem := rfl
@[simp] theorem takeBranch_openCount (off : Byte) : (takeBranch off s).openCount = s.openCount := rfl

/-! #### `chargePenalty` -/

@[simp] theorem chargePenalty_a (n : Nat) : (chargePenalty n s).a = s.a := rfl
@[simp] theorem chargePenalty_x (n : Nat) : (chargePenalty n s).x = s.x := rfl
@[simp] theorem chargePenalty_y (n : Nat) : (chargePenalty n s).y = s.y := rfl
@[simp] theorem chargePenalty_pc (n : Nat) : (chargePenalty n s).pc = s.pc := rfl
@[simp] theorem chargePenalty_sp (n : Nat) : (chargePenalty n s).sp = s.sp := rfl
@[simp] theorem chargePenalty_flagC (n : Nat) : (chargePenalty n s).flagC = s.flagC := rfl
@[simp] theorem chargePenalty_flagZ (n : Nat) : (chargePenalty n s).flagZ = s.flagZ := rfl
@[simp] theorem chargePenalty_flagI (n : Nat) : (chargePenalty n s).flagI = s.flagI := rfl
@[simp] theorem chargePenalty_flagD (n : Nat) : (chargePenalty n s).flagD = s.flagD := rfl
@[simp] theorem chargePenalty_flagV (n : Nat) : (chargePenalty n s).flagV = s.flagV := rfl
@[simp] theorem chargePenalty_flagN (n : Nat) : (chargePenalty n s).flagN = s.flagN := rfl
@[simp] theorem chargePenalty_curOp (n : Nat) : (chargePenalty n s).curOp = s.curOp := rfl
@[simp] theorem chargePenalty_cyc (n : Nat) : (chargePenalty n s).cyc = s.cyc - (n : Int) := rfl
@[simp] theorem chargePenalty_mem (n : Nat) : (chargePenalty n s).mem = s.mem := rfl
@[simp] theorem chargePenalty_openCount (n : Nat) : (chargePenalty n s).openCount = s.openCount := rfl

/-! #### `replenish` and `afterDataFault`, whose other fields do not depend on the case -/

theorem replenish_eq :
    replenish P s = { s with cyc := if s.cyc < 0 then s.cyc + P.interruptPeriod else s.cyc } := by
  unfold replenish; split <;> rfl

theorem afterDataFault_eq (n : Nat) :
    afterDataFault n s = { s with
      cyc := if n = 0 then s.cyc else if Config.penaltyDebitedAtFault s.openCount then s.cyc - (n : Int) else s.cyc
      openCount := if n = 0 then s.openCount else s.openCount + 1 } := by
  unfold afterDataFault; by_cases h : n = 0 <;> simp [h]

@[simp] theorem replenish_a : (replenish P s).a = s.a := by rw [replenish_eq]
@[simp] theorem replenish_x : (replenish P s).x = s.x := by rw [replenish_eq]
@[simp] theorem replenish_y : (replenish P s).y = s.y := by rw [replenish_eq]
@[simp] theorem replenish_pc : (replenish P s).pc = s.pc := by rw [replenish_eq]
@[simp] theorem replenish_sp : (replenish P s).sp = s.sp := by rw [replenish_eq]
@[simp] theorem replenish_flagC : (replenish P s).flagC = s.flagC := by rw [replenish_eq]
@[simp] theorem replenish_flagZ : (replenish P s).flagZ = s.flagZ := by rw [replenish_eq]
@[simp] theorem replenish_flagI : (replenish P s).flagI = s.flagI := by rw [replenish_eq]
@[simp] theorem replenish_flagD : (replenish P s).flagD = s.flagD := by rw [replenish_eq]
@[simp] theorem replenish_flagV : (replenish P s).flagV = s.flagV := by rw [replenish_eq]
@[simp] theorem replenish_flagN : (replenish P s).flagN = s.flagN := by rw [replenish_eq]
@[simp] theorem replenish_curOp : (replenish P s).curOp = s.curOp := by rw [replenish_eq]
@[simp] theorem replenish_mem : (replenish P s).mem = s.mem := by rw [replenish_eq]
@[simp] theorem replenish_openCount : (replenish P s).openCount = s.openCount := by rw [replenish_eq]
@[simp] theorem afterDataFault_a (n : Nat) : (afterDataFault n s).a = s.a := by rw [afterDataFault_eq]
@[simp] theorem afterDataFault_x (n : Nat) : (afterDataFault n s).x = s.x := by rw [afterDataFault_eq]
@[simp] theorem afterDataFault_y (n : Nat) : (afterDataFault n s).y = s.y := by rw [afterDataFault_eq]
@[simp] theorem afterDataFault_pc (n : Nat) : (afterDataFault n s).pc = s.pc := by rw [afterDataFault_eq]
@[simp] theorem afterDataFault_sp (n : Nat) : (afterDataFault n s).sp = s.sp := by rw [afterDataFault_eq]
@[simp] theorem afterDataFault_flagC (n : Nat) : (afterDataFault n s).flagC = s.flagC := by rw [afterDataFault_eq]
@[simp] theorem afterDataFault_flagZ (n : Nat) : (afterDataFault n s).flagZ = s.flagZ := by rw [afterDataFault_eq]
@[simp] theorem afterDataFault_flagI (n : Nat) : (afterDataFault n s).flagI = s.flagI := by rw [afterDataFault_eq]
@[simp] theorem afterDataFault_flagD (n : Nat) : (afterDataFault n s).flagD = s.flagD := by rw [afterDataFault_eq]
@[simp] theorem afterDataFault_flagV (n : Nat) : (afterDataFault n s).flagV = s.flagV := by rw [afterDataFault_eq]
@[simp] theorem afterDataFault_flagN (n : Nat) : (afterDataFault n s).flagN = s.flagN := by rw [afterDataFault_eq]
@[simp] theorem afterDataFault_curOp (n : Nat) : (afterDataFault n s).curOp = s.curOp := by rw [afterDataFault_eq]
@[simp] theorem afterDataFault_mem (n : Nat) : (afterDataFault n s).mem = s.mem := by rw [afterDataFault_eq]
@[simp] theorem replenish_cyc :
    (replenish P s).cyc = if s.cyc < 0 then s.cyc + P.interruptPeriod else s.cyc := by rw [replenish_eq]

/-- The free value leaves `CYC` one of two values. -/
theorem afterDataFault_cyc (n : Nat) : (afterDataFault n s).cyc = s.cyc ∨ (afterDataFault n s).cyc = s.cyc - (n : Int) := by
  rw [afterDataFault_eq]; by_cases h : n = 0 <;> simp [h]
  cases Config.penaltyDebitedAtFault s.openCount <;> simp

@[simp] theorem chargePenalty_zero : chargePenalty 0 s = s := by simp [chargePenalty]

/-! ### The parameters of this hardware -/

@[simp] theorem params_capacity : Config.params.capacity = 0x10000 := rfl
@[simp] theorem params_interruptPeriod : Config.params.interruptPeriod = 20 := rfl

/-- The default `BASE_CYCLES` of an instruction's opcode byte is the instruction's figure of R53. -/
theorem params_baseCycles {i : Instr} (h : i.wf = true) : Config.params.baseCycles i.opcode = i.baseCycles :=
  congrArg Instr.baseCycles (decodeOpcode_opcode h)

/-! ### Reset -/

@[simp] theorem construct_a : (State.construct P).a = 0x00 := rfl
@[simp] theorem construct_x : (State.construct P).x = 0x00 := rfl
@[simp] theorem construct_y : (State.construct P).y = 0x00 := rfl
@[simp] theorem construct_pc : (State.construct P).pc = 0x0000 := rfl
@[simp] theorem construct_sp : (State.construct P).sp = 0xFF := rfl
@[simp] theorem construct_flagC : (State.construct P).flagC = false := rfl
@[simp] theorem construct_flagZ : (State.construct P).flagZ = false := rfl
@[simp] theorem construct_flagI : (State.construct P).flagI = false := rfl
@[simp] theorem construct_flagD : (State.construct P).flagD = false := rfl
@[simp] theorem construct_flagV : (State.construct P).flagV = false := rfl
@[simp] theorem construct_flagN : (State.construct P).flagN = false := rfl
@[simp] theorem construct_curOp : (State.construct P).curOp = 0x00 := rfl
@[simp] theorem construct_cyc : (State.construct P).cyc = P.interruptPeriod := rfl
@[simp] theorem construct_mem : (State.construct P).mem = ⟨[]⟩ := rfl
@[simp] theorem construct_openCount : (State.construct P).openCount = 0 := rfl

end Sys2Proof.Machine
end

