-- ==== Sys2Proof/Laws/Memory.lean ====
section
/-! SUPPORT. The laws of the memory controller's operations: what a read gives after a write, a load or a clear, and that each of
them keeps the canonical form (`Memory.wf`). -/

namespace Sys2Proof.Machine

/-! ### The cell list -/

/-- Strictly rising addresses. -/
abbrev Rising (cells : List Host.Cell) : Prop := cells.Pairwise fun p q => p.1 < q.1

theorem lookupCell_eq_unlisted_of_lt {cells : List Host.Cell} {a : Nat} (h : ∀ p ∈ cells, a < p.1) :
    lookupCell cells a = Memory.unlisted := by
  induction cells with
  | nil => rfl
  | cons p rest ih =>
    obtain ⟨k, v⟩ := p
    have hk : a < k := h (k, v) (by simp)
    have : a ≠ k := by omega
    simp [lookupCell, this, ih fun p hp => h p (by simp [hp])]

theorem lookupCell_storeCell_same {cells : List Host.Cell} (a : Nat) (v : Byte) (h : Rising cells) :
    lookupCell (storeCell cells a v) a = v := by
  induction cells with
  | nil => by_cases hv : v = Memory.unlisted <;> simp [storeCell, hv, lookupCell]
  | cons p rest ih =>
    obtain ⟨k, w⟩ := p
    rw [Rising, List.pairwise_cons] at h
    obtain ⟨hk, hrest⟩ := h
    have above : a ≤ k → ∀ p ∈ rest, a < p.1 := fun ha p hp => lt_of_le_of_lt ha (hk p hp)
    rcases lt_trichotomy a k with hak | rfl | hak
    · have hne : a ≠ k := by omega
      by_cases hv : v = Memory.unlisted
      · simp [storeCell, hak, hv, lookupCell, hne, lookupCell_eq_unlisted_of_lt (above hak.le)]
      · simp [storeCell, hak, hv, lookupCell]
    · by_cases hv : v = Memory.unlisted
      · simp [storeCell, hv, lookupCell_eq_unlisted_of_lt (above le_rfl)]
      · simp [storeCell, hv, lookupCell]
    · have hne : a ≠ k := by omega
      simp [storeCell, not_lt.mpr hak.le, hne, lookupCell, ih hrest]

theorem lookupCell_storeCell_other {cells : List Host.Cell} {a b : Nat} (v : Byte) (hab : b ≠ a) :
    lookupCell (storeCell cells a v) b = lookupCell cells b := by
  induction cells with
  | nil => by_cases hv : v = Memory.unlisted <;> simp [storeCell, hv, lookupCell, hab]
  | cons p rest ih =>
    obtain ⟨k, w⟩ := p
    rcases lt_trichotomy a k with hak | rfl | hak
    · by_cases hv : v = Memory.unlisted <;> simp [storeCell, hak, hv, lookupCell, hab]
    · by_cases hv : v = Memory.unlisted <;> simp [storeCell, hv, lookupCell, hab]
    · have hne : a ≠ k := by omega
      simp [storeCell, not_lt.mpr hak.le, hne, lookupCell, ih]

theorem mem_storeCell {cells : List Host.Cell} {a : Nat} {v : Byte} {p : Host.Cell} (h : p ∈ storeCell cells a v) :
    p ∈ cells ∨ (p = (a, v) ∧ v ≠ Memory.unlisted) := by
  induction cells with
  | nil => by_cases hv : v = Memory.unlisted <;> simp_all [storeCell]
  | cons q rest ih =>
    obtain ⟨k, w⟩ := q
    simp only [storeCell] at h
    split at h <;> (try split at h) <;> (try split at h) <;> simp_all <;> tauto

theorem rising_storeCell {cells : List Host.Cell} (a : Nat) (v : Byte) (h : Rising cells) : Rising (storeCell cells a v) := by
  induction cells with
  | nil => by_cases hv : v = Memory.unlisted <;> simp [storeCell, hv]
  | cons q rest ih =>
    obtain ⟨k, w⟩ := q
    have hc := List.pairwise_cons.mp h
    rcases lt_trichotomy a k with hak | rfl | hak
    · by_cases hv : v = Memory.unlisted
      · simpa [storeCell, hak, hv] using h
      · simp only [storeCell, hak, hv, if_true, if_false]
        exact List.pairwise_cons.mpr ⟨fun p hp => by
          rcases List.mem_cons.mp hp with rfl | hp
          · exact hak
          · exact hak.trans (hc.1 p hp), h⟩
    · by_cases hv : v = Memory.unlisted
      · simpa [storeCell, hv] using hc.2
      · simpa [storeCell, hv] using hc
    · have hne : a ≠ k := by omega
      simp only [storeCell, not_lt.mpr hak.le, hne, if_false]
      refine List.pairwise_cons.mpr ⟨fun p hp => ?_, ih hc.2⟩
      rcases mem_storeCell hp with hp | ⟨rfl, -⟩
      · exact hc.1 p hp
      · exact hak

/-! ### Reads and writes -/

@[simp] theorem Memory.unlisted_eq : Memory.unlisted = 0 := rfl

theorem Memory.read_eq_some {P : Params} {m : Memory} {a : Nat} {v : Byte} :
    m.read P a = some v ↔ a < P.capacity ∧ m.get a = v := by
  unfold Memory.read; split <;> simp_all

theorem Memory.read_eq_none {P : Params} {m : Memory} {a : Nat} : m.read P a = none ↔ P.capacity ≤ a := by
  unfold Memory.read; split <;> simp_all

theorem Memory.read_of_lt {P : Params} {m : Memory} {a : Nat} (h : a < P.capacity) : m.read P a = some (m.get a) := by
  simp [Memory.read, h]

/-- Everything a write can do: it succeeds exactly below the capacity, and changes one cell. -/
theorem Memory.write_eq_some {P : Params} {m m' : Memory} {a : Nat} {v : Byte} :
    m.write P a v = some m' ↔ a < P.capacity ∧ m' = ⟨storeCell m.cells a v⟩ := by
  unfold Memory.write; split <;> simp_all [eq_comm]

theorem Memory.write_of_lt {P : Params} {m : Memory} {a : Nat} (v : Byte) (h : a < P.capacity) :
    m.write P a v = some ⟨storeCell m.cells a v⟩ := by simp [Memory.write, h]

theorem Memory.write_eq_none {P : Params} {m : Memory} {a : Nat} {v : Byte} : m.write P a v = none ↔ P.capacity ≤ a := by
  unfold Memory.write; split <;> simp_all

theorem Memory.read_write_same {P : Params} {m m' : Memory} {a : Nat} {v : Byte} (hw : m.wf P) (h : m.write P a v = some m') :
    m'.read P a = some v := by
  obtain ⟨ha, rfl⟩ := Memory.write_eq_some.mp h
  exact Memory.read_eq_some.mpr ⟨ha, lookupCell_storeCell_same a v hw.1⟩

theorem Memory.read_write_other {P : Params} {m m' : Memory} {a b : Nat} {v : Byte} (h : m.write P a v = some m') (hab : b ≠ a) :
    m'.read P b = m.read P b := by
  obtain ⟨-, rfl⟩ := Memory.write_eq_some.mp h
  simp [Memory.read, Memory.get, lookupCell_storeCell_other v hab]

theorem Memory.wf_write {P : Params} {m m' : Memory} {a : Nat} {v : Byte} (hw : m.wf P) (h : m.write P a v = some m') : m'.wf P := by
  obtain ⟨ha, rfl⟩ := Memory.write_eq_some.mp h
  refine ⟨rising_storeCell a v hw.1, fun p hp => ?_⟩
  rcases mem_storeCell hp with hp | ⟨rfl, hv⟩
  · exact hw.2 p hp
  · exact ⟨ha, hv⟩

/-! ### Load and clear -/

theorem lookupCell_storeCells_below {cells : List Host.Cell} {a b : Nat} (bytes : List Byte) (h : b < a) :
    lookupCell (storeCells cells a bytes) b = lookupCell cells b := by
  induction bytes generalizing cells a with
  | nil => rfl
  | cons v vs ih => rw [storeCells, ih (by omega), lookupCell_storeCell_other v (by omega)]

theorem lookupCell_storeCells_above {cells : List Host.Cell} {a b : Nat} (bytes : List Byte) (h : a + bytes.length ≤ b) :
    lookupCell (storeCells cells a bytes) b = lookupCell cells b := by
  induction bytes generalizing cells a with
  | nil => rfl
  | cons v vs ih =>
    simp only [List.length_cons] at h
    rw [storeCells, ih (by omega), lookupCell_storeCell_other v (by omega)]

theorem lookupCell_storeCells_inside {cells : List Host.Cell} {a : Nat} (bytes : List Byte) (hr : Rising cells) (k : Nat)
    (h : k < bytes.length) : lookupCell (storeCells cells a bytes) (a + k) = bytes[k] := by
  induction bytes generalizing cells a k with
  | nil => simp at h
  | cons v vs ih =>
    cases k with
    | zero => simpa [storeCells, lookupCell_storeCells_below vs (Nat.lt_succ_self a)] using lookupCell_storeCell_same a v hr
    | succ k =>
      have := ih (cells := storeCell cells a v) (a := a + 1) (rising_storeCell a v hr) k (by simpa using h)
      simpa [storeCells, Nat.add_comm 1 k, Nat.add_assoc] using this

theorem canonical_storeCells {P : Params} {cells : List Host.Cell} {a : Nat} (bytes : List Byte) (h : (Memory.mk cells).wf P)
    (hfit : a + bytes.length ≤ P.capacity) : (Memory.mk (storeCells cells a bytes)).wf P := by
  induction bytes generalizing cells a with
  | nil => exact h
  | cons v vs ih =>
    simp only [List.length_cons] at hfit
    exact ih (Memory.wf_write h (Memory.write_of_lt v (show a < P.capacity by omega))) (by omega)

theorem Memory.load_eq_some {P : Params} {m m' : Memory} {offset : Nat} {bytes : List Byte} :
    m.load P offset bytes = some m' ↔
      offset + bytes.length ≤ P.capacity ∧ m' = ⟨storeCells m.cells offset bytes⟩ := by
  unfold Memory.load
  split <;> rename_i h
  · simp only [reduceCtorEq, false_iff, not_and]; omega
  · simp only [Option.some.injEq, eq_comm (b := m')]; constructor <;> intro h' <;> [exact ⟨by omega, h'⟩; exact h'.2]

theorem Memory.load_eq_none {P : Params} {m : Memory} {offset : Nat} {bytes : List Byte} :
    m.load P offset bytes = none ↔ P.capacity < offset + bytes.length := by
  unfold Memory.load
  split <;> rename_i h
  · simp; omega
  · simp; omega

theorem Memory.wf_load {P : Params} {m m' : Memory} {offset : Nat} {bytes : List Byte} (hw : m.wf P)
    (h : m.load P offset bytes = some m') : m'.wf P := by
  obtain ⟨hfit, rfl⟩ := Memory.load_eq_some.mp h
  exact canonical_storeCells bytes hw hfit

theorem Memory.wf_clear (P : Params) (m : Memory) : m.clear.wf P := by simp [Memory.clear, Memory.wf]

theorem Memory.wf_construct (P : Params) : (State.construct P).mem.wf P := by simp [Memory.wf]

/-- The canonical form is unique: two canonical memories that read alike are equal. -/
theorem Memory.ext_of_wf {P : Params} {m n : Memory} (hm : m.wf P) (hn : n.wf P) (hr : ∀ a, m.get a = n.get a) :
    m = n := by
  suffices h : ∀ (as bs : List Host.Cell), Rising as → Rising bs → (∀ p ∈ as, p.2 ≠ Memory.unlisted) →
      (∀ p ∈ bs, p.2 ≠ Memory.unlisted) → (∀ a, lookupCell as a = lookupCell bs a) → as = bs by
    obtain ⟨as⟩ := m
    obtain ⟨bs⟩ := n
    rw [h as bs hm.1 hn.1 (fun p hp => (hm.2 p hp).2) (fun p hp => (hn.2 p hp).2) hr]
  intro as
  induction as with
  | nil =>
    rintro (_ | ⟨⟨k, v⟩, bs⟩) - hb - hv hr
    · rfl
    · exact absurd (by simpa [lookupCell] using (hr k).symm) (hv (k, v) (by simp))
  | cons p as ih =>
    obtain ⟨k, v⟩ := p
    rintro (_ | ⟨⟨l, w⟩, bs⟩) ha hb hva hvb hr
    · exact absurd (by simpa [lookupCell] using hr k) (hva (k, v) (by simp))
    have ha' := List.pairwise_cons.mp ha
    have hb' := List.pairwise_cons.mp hb
    have hkl : k = l := by
      rcases lt_trichotomy k l with h | h | h
      · exfalso
        have h0 : lookupCell ((l, w) :: bs) k = Memory.unlisted := lookupCell_eq_unlisted_of_lt fun p hp => by
          rcases List.mem_cons.mp hp with rfl | hp
          · exact h
          · exact h.trans (hb'.1 p hp)
        exact hva (k, v) (by simp) (by have := hr k; rw [h0] at this; simpa [lookupCell] using this)
      · exact h
      · exfalso
        have h0 : lookupCell ((k, v) :: as) l = Memory.unlisted := lookupCell_eq_unlisted_of_lt fun p hp => by
          rcases List.mem_cons.mp hp with rfl | hp
          · exact h
          · exact h.trans (ha'.1 p hp)
        exact hvb (l, w) (by simp) (by have := hr l; rw [h0] at this; simpa [lookupCell] using this.symm)
    subst hkl
    have hvw : v = w := by simpa [lookupCell] using hr k
    subst hvw
    congr 1
    refine ih bs ha'.2 hb'.2 (fun p hp => hva p (by simp [hp])) (fun p hp => hvb p (by simp [hp])) fun a => ?_
    by_cases hak : a = k
    · rw [lookupCell_eq_unlisted_of_lt (hak ▸ ha'.1), lookupCell_eq_unlisted_of_lt (hak ▸ hb'.1)]
    · simpa [lookupCell, hak] using hr a

end Sys2Proof.Machine
end

