-- ==== Sys2Proof/Laws/Operands.lean ====
section
/-! SUPPORT. What each shared operation of Machine/Ops.lean and Machine/Operands.lean can answer, once: outcomes, memory accesses,
the resolver, the operand fetch and the handlers. -/

namespace Sys2Proof.Machine

variable {σ τ : Type} {P : Params}

/-! ### Outcomes -/

@[simp] theorem andThen_next (v : σ) (f : σ → Host.Outcome τ Fault Refusal) : andThen (.next v) f = f v := rfl
@[simp] theorem andThen_fault (r : Fault) (f : σ → Host.Outcome τ Fault Refusal) : andThen (.fault r) f = .fault r := rfl
@[simp] theorem andThen_refused (r : Refusal) (f : σ → Host.Outcome τ Fault Refusal) : andThen (.refused r) f = .refused r := rfl

theorem andThen_eq_next {o : Host.Outcome σ Fault Refusal} {f : σ → Host.Outcome τ Fault Refusal} {w : τ} :
    andThen o f = .next w ↔ ∃ v, o = .next v ∧ f v = .next w := by cases o <;> simp

theorem andThen_eq_fault {o : Host.Outcome σ Fault Refusal} {f : σ → Host.Outcome τ Fault Refusal} {r : Fault} :
    andThen o f = .fault r ↔ o = .fault r ∨ ∃ v, o = .next v ∧ f v = .fault r := by cases o <;> simp

theorem andThen_eq_refused {o : Host.Outcome σ Fault Refusal} {f : σ → Host.Outcome τ Fault Refusal} {r : Refusal} :
    andThen o f = .refused r ↔ o = .refused r ∨ ∃ v, o = .next v ∧ f v = .refused r := by cases o <;> simp

/-! ### Memory accesses -/

theorem memRead_eq_next {a : Nat} {s : State} {v : Byte} : memRead P a s = .next v ↔ s.mem.read P a = some v := by
  unfold memRead raise; split <;> simp_all

theorem memRead_eq_fault {a : Nat} {s : State} {r : Fault} :
    memRead P a s = .fault r ↔ P.capacity ≤ a ∧ r = .outOfRange a s := by
  unfold memRead raise
  split <;> rename_i h
  · simp [Memory.read_eq_some] at h; simp; omega
  · simp [Memory.read_eq_none.mp h, eq_comm]

theorem memRead_ne_refused {a : Nat} {s : State} {r : Refusal} : memRead P a s ≠ .refused r := by
  unfold memRead raise; split <;> simp

theorem memWrite_eq_next {a : Nat} {v : Byte} {s t : State} :
    memWrite P a v s = .next t ↔ ∃ m, s.mem.write P a v = some m ∧ t = { s with mem := m } := by
  unfold memWrite raise
  split <;> rename_i h
  · simp [h, eq_comm]
  · simp [h]

theorem memWrite_eq_fault {a : Nat} {v : Byte} {s : State} {r : Fault} :
    memWrite P a v s = .fault r ↔ P.capacity ≤ a ∧ r = .outOfRange a s := by
  unfold memWrite raise
  split <;> rename_i h
  · simp [Memory.write_eq_some] at h; simp; omega
  · simp [Memory.write_eq_none.mp h, eq_comm]

theorem memWrite_ne_refused {a : Nat} {v : Byte} {s : State} {r : Refusal} : memWrite P a v s ≠ .refused r := by
  unfold memWrite raise; split <;> simp

theorem readPair_eq_next {p : Nat} {s : State} {w : Nat} :
    readPair P p s = .next w ↔
      ∃ lo hi, s.mem.read P p = some lo ∧ s.mem.read P (p + 1) = some hi ∧ littleEndian lo hi = w := by
  simp only [readPair, andThen_eq_next, memRead_eq_next]
  simp only [Host.Outcome.next.injEq]
  constructor
  · rintro ⟨lo, hlo, hi, hhi, rfl⟩; exact ⟨lo, hi, hlo, hhi, rfl⟩
  · rintro ⟨lo, hi, hlo, hhi, rfl⟩; exact ⟨lo, hlo, hi, hhi, rfl⟩

theorem readPair_eq_fault {p : Nat} {s : State} {r : Fault} (h : readPair P p s = .fault r) :
    ∃ a, P.capacity ≤ a ∧ r = .outOfRange a s := by
  simp only [readPair, andThen_eq_fault, memRead_eq_fault, reduceCtorEq, and_false, exists_false, or_false] at h
  rcases h with h | ⟨_, -, h⟩
  · exact ⟨_, h⟩
  · exact ⟨_, h⟩

theorem readPair_ne_refused {p : Nat} {s : State} {r : Refusal} : readPair P p s ≠ .refused r := by
  intro h
  simp [readPair, andThen_eq_refused, memRead_ne_refused] at h

theorem readPair_lt {p : Nat} {s : State} {w : Nat} (h : readPair P p s = .next w) : w < 0x10000 := by
  obtain ⟨lo, hi, -, -, rfl⟩ := readPair_eq_next.mp h
  exact littleEndian_lt lo hi

/-- Two bytes below the capacity can be read as a pair. -/
theorem readPair_of_lt {p : Nat} {s : State} (h : p + 1 < P.capacity) : ∃ w, readPair P p s = .next w :=
  ⟨_, readPair_eq_next.mpr ⟨_, _, Memory.read_of_lt (by omega), Memory.read_of_lt h, rfl⟩⟩

/-! ### The resolver -/

theorem indexed_addr_lt {base : Nat} (index : Byte) (n : Nat) (h : base < 0x10000) :
    (indexed base index.toNat n).addr < 0x10000 := by
  have := index.isLt
  unfold indexed; split <;> simp <;> omega

theorem indexed_penalty_le (base index n : Nat) : (indexed base index n).penalty ≤ n := by
  unfold indexed; split <;> simp

/-- A mode that has an effective address (R74). -/
def HasAddress (mode : AddressingMode) : Prop :=
  mode ≠ .accumulator ∧ mode ≠ .implied ∧ mode ≠ .indirect

/-- Everything the resolver can find: an address of 16 bits and at most one penalty cycle. -/
theorem resolve_bounds {mode : AddressingMode} {s : State} {e : Resolved} (h : resolve P mode s = .next e) :
    e.addr < 0x10000 ∧ e.penalty ≤ 1 := by
  have hpc := s.pc.isLt
  cases mode <;> simp only [resolve, andThen_eq_next, Host.Outcome.next.injEq, reduceCtorEq] at h
  case absolute => obtain ⟨b, hb, rfl⟩ := h; exact ⟨readPair_lt hb, by simp⟩
  case absoluteX =>
    obtain ⟨b, hb, rfl⟩ := h
    exact ⟨indexed_addr_lt _ _ (readPair_lt hb), (indexed_penalty_le _ _ _).trans (by split <;> simp)⟩
  case absoluteY => obtain ⟨b, hb, rfl⟩ := h; exact ⟨indexed_addr_lt _ _ (readPair_lt hb), indexed_penalty_le _ _ _⟩
  case immediate => subst h; exact ⟨hpc, by simp⟩
  case relative => subst h; exact ⟨hpc, by simp⟩
  case indexedIndirect => obtain ⟨b, -, ea, hb, rfl⟩ := h; exact ⟨readPair_lt hb, by simp⟩
  case indirectIndexed =>
    obtain ⟨b, -, ea, hb, rfl⟩ := h
    exact ⟨indexed_addr_lt _ _ (readPair_lt hb), indexed_penalty_le _ _ _⟩
  case zeroPage => obtain ⟨b, -, rfl⟩ := h; have := b.isLt; simp; omega
  case zeroPageX => obtain ⟨b, -, rfl⟩ := h; simp; omega
  case zeroPageY => obtain ⟨b, -, rfl⟩ := h; simp; omega

/-- A fault of the resolver is a read out of range, and leaves the state as it was. -/
theorem resolve_eq_fault {mode : AddressingMode} {s : State} {r : Fault} (h : resolve P mode s = .fault r) :
    ∃ a, P.capacity ≤ a ∧ r = .outOfRange a s := by
  cases mode <;>
    simp only [resolve, andThen_eq_fault, memRead_eq_fault, reduceCtorEq, and_false, exists_false, or_false] at h
  case absolute => exact readPair_eq_fault h
  case absoluteX => exact readPair_eq_fault h
  case absoluteY => exact readPair_eq_fault h
  case zeroPage => exact ⟨_, h⟩
  case zeroPageX => exact ⟨_, h⟩
  case zeroPageY => exact ⟨_, h⟩
  case indexedIndirect =>
    rcases h with h | ⟨_, -, h⟩
    · exact ⟨_, h⟩
    · exact readPair_eq_fault h
  case indirectIndexed =>
    rcases h with h | ⟨_, -, h⟩
    · exact ⟨_, h⟩
    · exact readPair_eq_fault h

theorem resolve_ne_refused {mode : AddressingMode} (hm : HasAddress mode) {s : State} {r : Refusal} :
    resolve P mode s ≠ .refused r := by
  intro h
  cases mode <;> simp_all [resolve, andThen_eq_refused, memRead_ne_refused, readPair_ne_refused, HasAddress]

/-! ### The operand fetch -/

/-- Steps (a) and (b) of a handler, whole: the operand is the byte at the address the resolver finds. -/
theorem fetchOperand_eq_next {mode : AddressingMode} {s : State} {o : Operand} :
    fetchOperand P mode s = .next o ↔ resolve P mode s = .next ⟨o.addr, o.penalty⟩ ∧ s.mem.read P o.addr = some o.value := by
  simp only [fetchOperand, andThen_eq_next, raise]
  constructor
  · rintro ⟨e, he, h⟩
    split at h <;> simp only [Host.Outcome.next.injEq, reduceCtorEq] at h
    subst h; exact ⟨he, ‹_›⟩
  · rintro ⟨he, h⟩
    exact ⟨_, he, by simp [h]⟩

/-- A fault of the operand fetch: a read out of range, and `CYC` the only thing that may have changed (R139). -/
theorem fetchOperand_eq_fault {mode : AddressingMode} {s : State} {r : Fault} (h : fetchOperand P mode s = .fault r) :
    ∃ a n, n ≤ 1 ∧ P.capacity ≤ a ∧ r = .outOfRange a (afterDataFault n s) := by
  simp only [fetchOperand, andThen_eq_fault, raise] at h
  rcases h with h | ⟨e, he, h⟩
  · obtain ⟨a, ha, rfl⟩ := resolve_eq_fault h
    exact ⟨a, 0, by simp, ha, by simp [afterDataFault]⟩
  · split at h <;> simp only [Host.Outcome.fault.injEq, reduceCtorEq] at h
    exact ⟨_, _, (resolve_bounds he).2, Memory.read_eq_none.mp ‹_›, h.symm⟩

theorem fetchOperand_ne_refused {mode : AddressingMode} (hm : HasAddress mode) {s : State} {r : Refusal} :
    fetchOperand P mode s ≠ .refused r := by
  intro h
  simp only [fetchOperand, andThen_eq_refused, raise] at h
  rcases h with h | ⟨_, -, h⟩
  · exact resolve_ne_refused hm h
  · split at h <;> simp at h

theorem fetchOperand_lt {mode : AddressingMode} {s : State} {o : Operand} (h : fetchOperand P mode s = .next o) :
    o.addr < P.capacity ∧ s.mem.get o.addr = o.value :=
  Memory.read_eq_some.mp (fetchOperand_eq_next.mp h).2

/-- With all 64 KiB backed, the operand fetch succeeds unless the high operand byte lies at 0x10000 (R36). -/
theorem resolve_completes {mode : AddressingMode} (hm : HasAddress mode) {s : State}
    (hc : 0x10000 ≤ P.capacity) (hp : mode.operandCount = 2 → s.pc ≠ 0xFFFF) : ∃ e, resolve P mode s = .next e := by
  have hpc := s.pc.isLt
  have hpair : mode.operandCount = 2 → ∃ w, readPair P s.pc.toNat s = .next w := fun h2 => by
    have hne : s.pc.toNat ≠ 0xFFFF := fun h => hp h2 (BitVec.eq_of_toNat_eq (by simpa using h))
    exact readPair_of_lt (by omega)
  have hbyte : memRead P s.pc.toNat s = .next (s.mem.get s.pc.toNat) :=
    memRead_eq_next.mpr (Memory.read_of_lt (by omega))
  have hzp : ∀ p, p < 256 → ∃ w, readPair P p s = .next w := fun p h => readPair_of_lt (by omega)
  cases mode
  case absolute => obtain ⟨w, hw⟩ := hpair rfl; exact ⟨_, by rw [resolve, hw]; rfl⟩
  case absoluteX => obtain ⟨w, hw⟩ := hpair rfl; exact ⟨_, by rw [resolve, hw]; rfl⟩
  case absoluteY => obtain ⟨w, hw⟩ := hpair rfl; exact ⟨_, by rw [resolve, hw]; rfl⟩
  case indexedIndirect =>
    obtain ⟨w, hw⟩ := hzp (((s.mem.get s.pc.toNat).toNat + s.x.toNat) % 256) (Nat.mod_lt _ (by decide))
    exact ⟨_, by rw [resolve, hbyte, andThen_next, hw]; rfl⟩
  case indirectIndexed =>
    obtain ⟨w, hw⟩ := hzp (s.mem.get s.pc.toNat).toNat (BitVec.isLt _)
    exact ⟨_, by rw [resolve, hbyte, andThen_next, hw]; rfl⟩
  case accumulator => exact absurd rfl hm.1
  case implied => exact absurd rfl hm.2.1
  case indirect => exact absurd rfl hm.2.2
  all_goals first | exact ⟨_, rfl⟩ | exact ⟨_, by rw [resolve, hbyte]; rfl⟩

theorem fetchOperand_completes {mode : AddressingMode} (hm : HasAddress mode) {s : State}
    (hc : 0x10000 ≤ P.capacity) (hp : mode.operandCount = 2 → s.pc ≠ 0xFFFF) : ∃ o, fetchOperand P mode s = .next o := by
  obtain ⟨e, he⟩ := resolve_completes hm hc hp
  exact ⟨⟨e.addr, s.mem.get e.addr, e.penalty⟩,
    fetchOperand_eq_next.mpr ⟨he, Memory.read_of_lt (lt_of_lt_of_le (resolve_bounds he).1 hc)⟩⟩

/-! ### The handlers -/

theorem readingHandler_of_fetch {i : Instr} {mode : AddressingMode} {effect : Byte → State → State} {s : State} {o : Operand}
    (h : fetchOperand P mode s = .next o) :
    readingHandler P i mode effect s = .next (finish P i (effect o.value (chargePenalty o.penalty s))) := by
  simp [readingHandler, h]

theorem readingHandler_eq_next {i : Instr} {mode : AddressingMode} {effect : Byte → State → State} {s t : State} :
    readingHandler P i mode effect s = .next t ↔
      ∃ o, fetchOperand P mode s = .next o ∧ t = finish P i (effect o.value (chargePenalty o.penalty s)) := by
  simp only [readingHandler, andThen_eq_next, Host.Outcome.next.injEq, eq_comm (b := t)]

theorem readingHandler_eq_fault {i : Instr} {mode : AddressingMode} {effect : Byte → State → State} {s : State} {r : Fault} :
    readingHandler P i mode effect s = .fault r ↔ fetchOperand P mode s = .fault r := by
  simp [readingHandler, andThen_eq_fault]

/-- A read-modify-write handler whose effect leaves memory alone writes where it read, and cannot fault there (R78). -/
theorem modifyingHandler_of_fetch {i : Instr} {mode : AddressingMode} {result : Byte → State → Byte}
    {effect : Byte → State → State} {s : State} {o : Operand} (hmem : ∀ v t, (effect v t).mem = t.mem)
    (h : fetchOperand P mode s = .next o) :
    ∃ m, s.mem.write P o.addr (result o.value s) = some m ∧
      modifyingHandler P i mode result effect s =
        .next (finish P i { effect o.value (chargePenalty o.penalty s) with mem := m }) := by
  obtain ⟨m, hm⟩ : ∃ m, s.mem.write P o.addr (result o.value s) = some m :=
    ⟨_, Memory.write_of_lt _ (fetchOperand_lt h).1⟩
  refine ⟨m, hm, ?_⟩
  simp [modifyingHandler, h, memWrite, hmem, hm]

theorem modifyingHandler_eq_next {i : Instr} {mode : AddressingMode} {result : Byte → State → Byte}
    {effect : Byte → State → State} {s t : State} (hmem : ∀ v t, (effect v t).mem = t.mem) :
    modifyingHandler P i mode result effect s = .next t ↔
      ∃ o m, fetchOperand P mode s = .next o ∧ s.mem.write P o.addr (result o.value s) = some m ∧
        t = finish P i { effect o.value (chargePenalty o.penalty s) with mem := m } := by
  constructor
  · intro h
    have h' := h
    rw [modifyingHandler, andThen_eq_next] at h'
    obtain ⟨o, ho, -⟩ := h'
    obtain ⟨m, hm, heq⟩ := modifyingHandler_of_fetch (i := i) (result := result) hmem ho
    exact ⟨o, m, ho, hm, by rw [heq] at h; exact (Host.Outcome.next.inj h).symm⟩
  · rintro ⟨o, m, ho, hm, rfl⟩
    obtain ⟨m', hm', heq⟩ := modifyingHandler_of_fetch (i := i) (result := result) hmem ho
    rw [heq, Option.some.inj (hm.symm.trans hm')]

theorem modifyingHandler_eq_fault {i : Instr} {mode : AddressingMode} {result : Byte → State → Byte}
    {effect : Byte → State → State} {s : State} {r : Fault} (hmem : ∀ v t, (effect v t).mem = t.mem) :
    modifyingHandler P i mode result effect s = .fault r ↔ fetchOperand P mode s = .fault r := by
  constructor
  · intro h
    have h' := h
    rw [modifyingHandler, andThen_eq_fault] at h'
    rcases h' with h' | ⟨o, ho, -⟩
    · exact h'
    · obtain ⟨m, -, heq⟩ := modifyingHandler_of_fetch (i := i) (result := result) hmem ho
      rw [heq] at h; cases h
  · intro h; simp [modifyingHandler, h]

end Sys2Proof.Machine
end

