-- ==== Sys2Proof/Laws/Step.lean ====
section
/-! SUPPORT. What `execAt` and `stepAt`, and so `exec` and `step`, can do, said once: the shape of every handler with the frame of its
effect, and the inversion of a step. Invariants and frames are derived from these, not by unfolding the meanings. -/

namespace Sys2Proof.Machine

/-! ### The host's `exec` and `step` are these at the parameters of this hardware -/

theorem exec_eq_execAt (i : Instr) (s : State) : exec i s = execAt Config.params i s := by cases i <;> rfl

theorem step_eq_stepAt (s : State) : step s = stepAt Config.params s := by
  simp only [step, stepAt, exec_eq_execAt]

/-! ### Handlers -/

variable {P : Params}

/-- What the effect of instruction `i` leaves alone, before `finish` and before the write of a read-modify-write: the writer tables
of R14 and R18, `SP`, `CUR_OP`, memory, and, but for a branch, `PC` and `CYC`. -/
structure EffectFrame (i : Instr) (s t : State) : Prop where
  a : i.writesA = false → t.a = s.a
  x : i.writesX = false → t.x = s.x
  y : i.writesY = false → t.y = s.y
  flagC : i.writesC = false → t.flagC = s.flagC
  flagZ : i.writesZN = false → t.flagZ = s.flagZ
  flagN : i.writesZN = false → t.flagN = s.flagN
  flagI : i.writesI = false → t.flagI = s.flagI
  flagD : i.writesD = false → t.flagD = s.flagD
  flagV : i.writesV = false → t.flagV = s.flagV
  sp : t.sp = s.sp
  curOp : t.curOp = s.curOp
  mem : t.mem = s.mem
  openCount : t.openCount = s.openCount
  pc : i.transfersControl = false → t.pc = s.pc
  cyc : t.cyc = s.cyc ∨ (i.transfersControl = true ∧ (t.cyc = s.cyc - 1 ∨ t.cyc = s.cyc - 2))

theorem EffectFrame.rfl {i : Instr} {s : State} : EffectFrame i s s := by constructor <;> simp

/-- The shapes a handler can have. -/
inductive ExecShape (P : Params) (i : Instr) (s : State) : Host.Outcome State Fault Refusal → Prop where
  | register (hlen : i.length ≠ 3) (effect : State → State) (frame : EffectFrame i s (effect s)) : ExecShape P i s (registerHandler P i effect s)
  | reading (mode : AddressingMode) (hm : HasAddress mode) (hmode : i.mode = some mode)
      (effect : Byte → State → State) (frame : ∀ v t, EffectFrame i t (effect v t)) :
      ExecShape P i s (readingHandler P i mode effect s)
  | modifying (mode : AddressingMode) (hm : HasAddress mode) (hmode : i.mode = some mode)
      (hmod : i.modifies = some mode) (result : Byte → State → Byte) (effect : Byte → State → State)
      (frame : ∀ v t, EffectFrame i t (effect v t)) : ExecShape P i s (modifyingHandler P i mode result effect s)
  | jump (hi : i = .jmp) : ExecShape P i s (execJmp s P)
  | unimplemented (hi : i.executable = false) : ExecShape P i s (unimplementedHandler i s)
  | unsupported (b : Byte) (hi : i = .unsupported b) : ExecShape P i s (execUnsupported b s)

theorem hasAddress_alu (m : AluMode) : HasAddress m.tag := by cases m <;> simp [HasAddress, AluMode.tag, AluMode.pick]
theorem hasAddress_count (m : CountMode) : HasAddress m.tag := by cases m <;> simp [HasAddress, CountMode.tag, CountMode.pick]
theorem hasAddress_bit (m : BitMode) : HasAddress m.tag := by cases m <;> simp [HasAddress, BitMode.tag, BitMode.pick]
theorem hasAddress_indexCompare (m : IndexCompareMode) : HasAddress m.tag := by
  cases m <;> simp [HasAddress, IndexCompareMode.tag, IndexCompareMode.pick]
theorem hasAddress_ldx (m : LdxMode) : HasAddress m.tag := by cases m <;> simp [HasAddress, LdxMode.tag, LdxMode.pick]
theorem hasAddress_ldy (m : LdyMode) : HasAddress m.tag := by cases m <;> simp [HasAddress, LdyMode.tag, LdyMode.pick]
theorem hasAddress_stx (m : StxMode) : HasAddress m.tag := by cases m <;> simp [HasAddress, StxMode.tag, StxMode.pick]
theorem hasAddress_sty (m : StyMode) : HasAddress m.tag := by cases m <;> simp [HasAddress, StyMode.tag, StyMode.pick]

/-- A shift has one of two shapes, with the accumulator or a memory byte. -/
theorem shift_shape {i : Instr} {m : ShiftMode} {s : State} (op : Byte → Bool → Byte × Bool)
    (hmode : i.mode = some m.tag) (hmod : i.modifies = if m = .accumulator then none else some m.tag)
    (hA : i.writesA = (m == .accumulator)) (hC : i.writesC = true) (hZN : i.writesZN = true) :
    ExecShape P i s (shiftHandler P i m op s) := by
  cases m <;> simp only [shiftHandler]
  case accumulator =>
    refine .register (by simp [Instr.length, Instr.operandCount, hmode, ShiftMode.tag, ShiftMode.pick, AddressingMode.operandCount]) _ ?_
    constructor <;> simp_all
  all_goals
    refine .modifying _ (by simp [HasAddress, ShiftMode.tag, ShiftMode.pick]) hmode (by simpa using hmod) _ _
      fun v t => ?_
    constructor <;> simp_all

/-- A branch reads its offset byte when taken and only completes when not. -/
theorem branch_shape {i : Instr} {s : State} (cond : Bool) (hmode : i.mode = some .relative) (ht : i.transfersControl = true) :
    ExecShape P i s (branchHandler P i cond s) := by
  unfold branchHandler
  split
  · refine .reading _ (by simp [HasAddress]) hmode _ fun v t => ?_
    constructor <;> simp [ht]
  · exact .register (by simp [Instr.length, Instr.operandCount, hmode, AddressingMode.operandCount]) id .rfl

/-- Everything `execAt` can do. -/
theorem execAt_shape (P : Params) (i : Instr) (s : State) : ExecShape P i s (execAt P i s) := by
  cases i
  case adc m =>
    simp only [execAt, execAdc]
    refine .reading _ (hasAddress_alu m) rfl _ fun v t => ?_
    constructor <;> simp [Instr.writesA, Instr.writesC, Instr.writesZN, Instr.writesV]
  case and m =>
    simp only [execAt, execAnd]
    refine .reading _ (hasAddress_alu m) rfl _ fun v t => ?_
    constructor <;> simp [Instr.writesA, Instr.writesZN]
  case ora m =>
    simp only [execAt, execOra]
    refine .reading _ (hasAddress_alu m) rfl _ fun v t => ?_
    constructor <;> simp [Instr.writesA, Instr.writesZN]
  case eor m =>
    simp only [execAt, execEor]
    refine .reading _ (hasAddress_alu m) rfl _ fun v t => ?_
    constructor <;> simp [Instr.writesA, Instr.writesZN]
  case asl m => exact shift_shape shiftLeft rfl rfl rfl rfl rfl
  case lsr m => exact shift_shape shiftRight rfl rfl rfl rfl rfl
  case rol m => exact shift_shape rotateLeft rfl rfl rfl rfl rfl
  case ror m => exact shift_shape rotateRight rfl rfl rfl rfl rfl
  case bit m =>
    simp only [execAt, execBit]
    refine .reading _ (hasAddress_bit m) rfl _ fun v t => ?_
    constructor <;> simp [Instr.writesZN, Instr.writesV]
  case cmp m =>
    simp only [execAt, execCmp]
    refine .reading _ (hasAddress_alu m) rfl _ fun v t => ?_
    constructor <;> simp [Instr.writesZN, Instr.writesC]
  case cpx m =>
    simp only [execAt, execCpx]
    refine .reading _ (hasAddress_indexCompare m) rfl _ fun v t => ?_
    constructor <;> simp [Instr.writesZN, Instr.writesC]
  case cpy m =>
    simp only [execAt, execCpy]
    refine .reading _ (hasAddress_indexCompare m) rfl _ fun v t => ?_
    constructor <;> simp [Instr.writesZN, Instr.writesC]
  case dec m =>
    simp only [execAt, execDec]
    refine .modifying _ (hasAddress_count m) rfl rfl _ _ fun v t => ?_
    constructor <;> simp [Instr.writesZN]
  case inc m =>
    simp only [execAt, execInc]
    refine .modifying _ (hasAddress_count m) rfl rfl _ _ fun v t => ?_
    constructor <;> simp [Instr.writesZN]
  case dex =>
    simp only [execAt, execDex]
    refine .register (by decide) _ ?_
    constructor <;> simp [Instr.writesX, Instr.writesZN]
  case dey =>
    simp only [execAt, execDey]
    refine .register (by decide) _ ?_
    constructor <;> simp [Instr.writesY, Instr.writesZN]
  case inx =>
    simp only [execAt, execInx]
    refine .register (by decide) _ ?_
    constructor <;> simp [Instr.writesX, Instr.writesZN]
  case iny =>
    simp only [execAt, execIny]
    refine .register (by decide) _ ?_
    constructor <;> simp [Instr.writesY, Instr.writesZN]
  case jmp => exact .jump rfl
  case lda m =>
    simp only [execAt, execLda]
    refine .reading _ (hasAddress_alu m) rfl _ fun v t => ?_
    constructor <;> simp [Instr.writesA, Instr.writesZN]
  case ldx m =>
    simp only [execAt, execLdx]
    refine .reading _ (hasAddress_ldx m) rfl _ fun v t => ?_
    constructor <;> simp [Instr.writesX, Instr.writesZN]
  case ldy m =>
    simp only [execAt, execLdy]
    refine .reading _ (hasAddress_ldy m) rfl _ fun v t => ?_
    constructor <;> simp [Instr.writesY, Instr.writesZN]
  case stx m =>
    simp only [execAt, execStx]
    refine .reading _ (hasAddress_stx m) rfl _ fun v t => ?_
    constructor <;> simp [Instr.writesX]
  case sty m =>
    simp only [execAt, execSty]
    refine .reading _ (hasAddress_sty m) rfl _ fun v t => ?_
    constructor <;> simp [Instr.writesY]
  case clc =>
    simp only [execAt, execClc]
    refine .register (by decide) _ ?_
    constructor <;> simp [Instr.writesC]
  case cld =>
    simp only [execAt, execCld]
    refine .register (by decide) _ ?_
    constructor <;> simp [Instr.writesD]
  case cli =>
    simp only [execAt, execCli]
    refine .register (by decide) _ ?_
    constructor <;> simp [Instr.writesI]
  case clv =>
    simp only [execAt, execClv]
    refine .register (by decide) _ ?_
    constructor <;> simp [Instr.writesV]
  case sec =>
    simp only [execAt, execSec]
    refine .register (by decide) _ ?_
    constructor <;> simp [Instr.writesC]
  case sed =>
    simp only [execAt, execSed]
    refine .register (by decide) _ ?_
    constructor <;> simp [Instr.writesD]
  case sei =>
    simp only [execAt, execSei]
    refine .register (by decide) _ ?_
    constructor <;> simp [Instr.writesI]
  case unsupported b => exact .unsupported b rfl
  all_goals first | exact branch_shape _ rfl rfl | exact .unimplemented rfl

/-- How a completed handler other than JMP's relates the states: at most one penalty cycle, the effect's frame, at most one byte
written (by a read-modify-write form, where its operand was), and `Finish`. -/
theorem execAt_eq_next {i : Instr} {s t : State} (h : execAt P i s = .next t) :
    (i = .jmp ∧ ∃ e, resolve P .absolute s = .next e ∧
      t = { s with pc := BitVec.ofNat 16 e.addr, cyc := s.cyc - (P.baseCycles Instr.jmp.opcode : Int) }) ∨
    ∃ n u m, n ≤ 1 ∧ EffectFrame i (chargePenalty n s) u ∧ t = finish P i { u with mem := m } ∧
      (m = s.mem ∨ ∃ mode o v, i.modifies = some mode ∧ fetchOperand P mode s = .next o ∧ s.mem.write P o.addr v = some m) := by
  have hs := execAt_shape P i s
  generalize hx : execAt P i s = x at hs h
  cases hs with
  | register _ effect frame =>
    cases h
    exact .inr ⟨0, effect s, s.mem, by simp, by simpa using frame, by rw [← frame.mem], .inl rfl⟩
  | reading mode hm hmode effect frame =>
    obtain ⟨o, ho, rfl⟩ := readingHandler_eq_next.mp h
    refine .inr ⟨o.penalty, effect o.value (chargePenalty o.penalty s), s.mem, ?_, frame _ _, ?_, .inl rfl⟩
    · exact (resolve_bounds (fetchOperand_eq_next.mp ho).1).2
    · have hmem : (effect o.value (chargePenalty o.penalty s)).mem = s.mem := (frame _ _).mem
      rw [← hmem]
  | modifying mode hm hmode hmod result effect frame =>
    obtain ⟨o, m, ho, hw, rfl⟩ := (modifyingHandler_eq_next fun v t => (frame v t).mem).mp h
    exact .inr ⟨o.penalty, _, m, (resolve_bounds (fetchOperand_eq_next.mp ho).1).2, frame _ _, rfl,
      .inr ⟨mode, o, _, hmod, ho, hw⟩⟩
  | jump hi =>
    obtain ⟨e, he, ht⟩ := andThen_eq_next.mp h
    exact .inl ⟨hi, e, he, (Host.Outcome.next.inj ht).symm⟩
  | unimplemented hi => cases h
  | unsupported b hi => cases h

/-- The faults of a handler, and the state each leaves. -/
theorem execAt_eq_fault {i : Instr} {s : State} {r : Fault} (h : execAt P i s = .fault r) :
    (∃ a n, n ≤ 1 ∧ P.capacity ≤ a ∧ r = .outOfRange a (afterDataFault n s)) ∨
    (i.executable = false ∧ r = .unimplemented i.opcode s) ∨ ∃ b, i = .unsupported b ∧ r = .unsupportedOpcode b s := by
  have hs := execAt_shape P i s
  generalize hx : execAt P i s = x at hs h
  cases hs with
  | register _ effect frame => cases h
  | reading mode hm hmode effect frame => exact .inl (fetchOperand_eq_fault (readingHandler_eq_fault.mp h))
  | modifying mode hm hmode hmod result effect frame =>
    exact .inl (fetchOperand_eq_fault ((modifyingHandler_eq_fault fun v t => (frame v t).mem).mp h))
  | jump hi =>
    rcases andThen_eq_fault.mp h with h | ⟨_, -, h⟩
    · obtain ⟨a, ha, rfl⟩ := resolve_eq_fault h
      exact .inl ⟨a, 0, by simp, ha, by simp [afterDataFault]⟩
    · cases h
  | unimplemented hi => exact .inr (.inl ⟨hi, (Host.Outcome.fault.inj h).symm⟩)
  | unsupported b hi => exact .inr (.inr ⟨b, hi, (Host.Outcome.fault.inj h).symm⟩)

/-- No handler refuses: the resolver is never asked for a mode without an address. -/
theorem execAt_ne_refused {i : Instr} {s : State} {r : Refusal} : execAt P i s ≠ .refused r := by
  intro h
  have hs := execAt_shape P i s
  generalize hx : execAt P i s = x at hs h
  cases hs with
  | register _ effect frame => cases h
  | reading mode hm hmode effect frame =>
    rcases andThen_eq_refused.mp h with h | ⟨_, -, h⟩
    · exact fetchOperand_ne_refused hm h
    · cases h
  | modifying mode hm hmode hmod result effect frame =>
    rcases andThen_eq_refused.mp h with h | ⟨_, -, h⟩
    · exact fetchOperand_ne_refused hm h
    · rcases andThen_eq_refused.mp h with h | ⟨_, -, h⟩
      · exact memWrite_ne_refused h
      · cases h
  | jump hi =>
    rcases andThen_eq_refused.mp h with h | ⟨_, -, h⟩
    · exact resolve_ne_refused (by simp [HasAddress]) h
    · cases h
  | unimplemented hi => cases h
  | unsupported b hi => cases h

/-! ### The step -/

theorem fetchOpcode_eq_next {s t : State} {op : Byte} :
    fetchOpcode P s = .next (op, t) ↔ s.mem.read P s.pc.toNat = some op ∧ t = { s with curOp := op, pc := s.pc + 1 } := by
  simp only [fetchOpcode, andThen_eq_next, memRead_eq_next, Host.Outcome.next.injEq, Prod.mk.injEq]
  constructor
  · rintro ⟨v, hv, rfl, rfl⟩; exact ⟨hv, rfl⟩
  · rintro ⟨hv, rfl⟩; exact ⟨op, hv, rfl, rfl⟩

theorem fetchOpcode_eq_fault {s : State} {r : Fault} :
    fetchOpcode P s = .fault r ↔ P.capacity ≤ s.pc.toNat ∧ r = .outOfRange s.pc.toNat s := by
  simp [fetchOpcode, andThen_eq_fault, memRead_eq_fault]

/-- A completed step: an opcode was fetched, its handler completed, and the budget was replenished. -/
theorem stepAt_eq_next {s t : State} :
    stepAt P s = .next t ↔ ∃ op u, s.mem.read P s.pc.toNat = some op ∧
      execAt P (decodeOpcode op) { s with curOp := op, pc := s.pc + 1 } = .next u ∧ t = replenish P u := by
  simp only [stepAt, andThen_eq_next, Host.Outcome.next.injEq]
  constructor
  · rintro ⟨⟨op, s'⟩, hf, u, hu, rfl⟩
    obtain ⟨hr, rfl⟩ := fetchOpcode_eq_next.mp hf
    exact ⟨op, u, hr, hu, rfl⟩
  · rintro ⟨op, u, hr, hu, rfl⟩
    exact ⟨(op, _), fetchOpcode_eq_next.mpr ⟨hr, rfl⟩, u, hu, rfl⟩

/-- A faulting step: the opcode fetch faulted, or the handler did. -/
theorem stepAt_eq_fault {s : State} {r : Fault} :
    stepAt P s = .fault r ↔ (P.capacity ≤ s.pc.toNat ∧ r = .outOfRange s.pc.toNat s) ∨
      ∃ op, s.mem.read P s.pc.toNat = some op ∧ execAt P (decodeOpcode op) { s with curOp := op, pc := s.pc + 1 } = .fault r := by
  simp only [stepAt, andThen_eq_fault, fetchOpcode_eq_fault, reduceCtorEq, and_false, exists_false, or_false]
  constructor
  · rintro (h | ⟨⟨op, s'⟩, hf, hr⟩)
    · exact .inl h
    · obtain ⟨hr', rfl⟩ := fetchOpcode_eq_next.mp hf
      exact .inr ⟨op, hr', hr⟩
  · rintro (h | ⟨op, hr, hf⟩)
    · exact .inl h
    · exact .inr ⟨(op, _), fetchOpcode_eq_next.mpr ⟨hr, rfl⟩, hf⟩

end Sys2Proof.Machine
end

