-- ==== Sys2Proof/Laws/Erase.lean ====
section
/-! SUPPORT. Two states that agree once a function `f` has erased some fields behave alike: said once for the memory controller, the
resolver, the three shapes of handler and `exec`, for every `f` that erases only fields no decision depends on. -/

namespace Sys2Proof.Machine

/-- An outcome with its value changed by `g` and the state a fault leaves changed by `f`. -/
def mapOn {σ τ : Type} (g : σ → τ) (f : State → State) : Host.Outcome σ Fault Refusal → Host.Outcome τ Fault Refusal
  | .next v => .next (g v)
  | .fault r => .fault (r.mapAfter f)
  | .refused r => .refused r

theorem mapOutcome_eq_mapOn (f : State → State) : mapOutcome f = mapOn f f := by
  funext x; cases x <;> rfl

/-- `f` erases nothing that the fetch, the resolver and the memory controller read, and the updates they and `Finish` make do not
tell apart what `f` does not, on two machines with one capacity, with parameters `P` and `Q`. -/
structure ErasesUnread (P Q : Params) (f : State → State) : Prop where
  capacity : P.capacity = Q.capacity
  mem : ∀ {s t}, f s = f t → s.mem = t.mem
  pc : ∀ {s t}, f s = f t → s.pc = t.pc
  x : ∀ {s t}, f s = f t → s.x = t.x
  y : ∀ {s t}, f s = f t → s.y = t.y
  curOp : ∀ {s t}, f s = f t → s.curOp = t.curOp
  charge : ∀ {s t} n, f s = f t → f (chargePenalty n s) = f (chargePenalty n t)
  faulted : ∀ {s t} n, f s = f t → f (afterDataFault n s) = f (afterDataFault n t)
  finished : ∀ {s t} i, f s = f t → f (finish P i s) = f (finish Q i t)
  stored : ∀ {s t} m, f s = f t → f { s with mem := m } = f { t with mem := m }

/-- Moreover nothing that an instruction's own effect reads is erased. -/
structure ErasesUnused (P Q : Params) (f : State → State) : Prop extends ErasesUnread P Q f where
  a : ∀ {s t}, f s = f t → s.a = t.a
  flagC : ∀ {s t}, f s = f t → s.flagC = t.flagC
  flagZ : ∀ {s t}, f s = f t → s.flagZ = t.flagZ
  flagD : ∀ {s t}, f s = f t → s.flagD = t.flagD
  flagV : ∀ {s t}, f s = f t → s.flagV = t.flagV
  flagN : ∀ {s t}, f s = f t → s.flagN = t.flagN
  setA : ∀ {s t} v, f s = f t → f { s with a := v } = f { t with a := v }
  setX : ∀ {s t} v, f s = f t → f { s with x := v } = f { t with x := v }
  setY : ∀ {s t} v, f s = f t → f { s with y := v } = f { t with y := v }
  setC : ∀ {s t} v, f s = f t → f { s with flagC := v } = f { t with flagC := v }
  setZN : ∀ {s t} z n, f s = f t → f { s with flagZ := z, flagN := n } = f { t with flagZ := z, flagN := n }
  setI : ∀ {s t} v, f s = f t → f { s with flagI := v } = f { t with flagI := v }
  setD : ∀ {s t} v, f s = f t → f { s with flagD := v } = f { t with flagD := v }
  setV : ∀ {s t} v, f s = f t → f { s with flagV := v } = f { t with flagV := v }
  jmp : ∀ {s t} p, f s = f t →
    f { s with pc := p, cyc := s.cyc - (P.baseCycles Instr.jmp.opcode : Int) } =
      f { t with pc := p, cyc := t.cyc - (Q.baseCycles Instr.jmp.opcode : Int) }
  jumped : ∀ {s t} p (k : Int), f s = f t → f { s with pc := p, cyc := s.cyc - k } = f { t with pc := p, cyc := t.cyc - k }

theorem andThen_erased {f : State → State} {σ τ ρ : Type} {g : τ → ρ} {o o' : Host.Outcome σ Fault Refusal}
    {k k' : σ → Host.Outcome τ Fault Refusal} (ho : mapOn id f o = mapOn id f o')
    (hk : ∀ v, mapOn g f (k v) = mapOn g f (k' v)) : mapOn g f (andThen o k) = mapOn g f (andThen o' k') := by
  cases o <;> cases o' <;> simp_all [mapOn, andThen]

section Handlers

variable {P Q : Params} {f : State → State} (hf : ErasesUnread P Q f) {s t : State} (h : f s = f t)
include hf h

omit h in
theorem read_eq (m : Memory) (addr : Nat) : m.read P addr = m.read Q addr := by
  simp only [Memory.read, hf.capacity]

omit h in
theorem write_eq (m : Memory) (addr : Nat) (v : Byte) : m.write P addr v = m.write Q addr v := by
  simp only [Memory.write, hf.capacity]

theorem memRead_erased (addr : Nat) : mapOn id f (memRead P addr s) = mapOn id f (memRead Q addr t) := by
  simp only [memRead, hf.mem h, read_eq hf]; cases t.mem.read Q addr <;> simp [mapOn, raise, Fault.mapAfter, h]

theorem readPair_erased (p : Nat) : mapOn id f (readPair P p s) = mapOn id f (readPair Q p t) :=
  andThen_erased (memRead_erased hf h _) fun _ => andThen_erased (memRead_erased hf h _) fun _ => rfl

theorem resolve_erased (mode : AddressingMode) : mapOn id f (resolve P mode s) = mapOn id f (resolve Q mode t) := by
  cases mode <;> simp only [resolve, hf.pc h, hf.x h, hf.y h, hf.curOp h]
  case zeroPage | zeroPageX | zeroPageY => exact andThen_erased (memRead_erased hf h _) fun _ => rfl
  case absolute | absoluteX | absoluteY => exact andThen_erased (readPair_erased hf h _) fun _ => rfl
  case indirectIndexed | indexedIndirect =>
    exact andThen_erased (memRead_erased hf h _) fun _ => andThen_erased (readPair_erased hf h _) fun _ => rfl

theorem fetchOperand_erased (mode : AddressingMode) :
    mapOn id f (fetchOperand P mode s) = mapOn id f (fetchOperand Q mode t) := by
  refine andThen_erased (resolve_erased hf h mode) fun e => ?_
  rw [hf.mem h, read_eq hf]
  cases t.mem.read Q e.addr <;> simp [mapOn, raise, Fault.mapAfter, hf.faulted e.penalty h]

omit h in
theorem registerHandler_erased {i : Instr} {effect : State → State} (he : f (effect s) = f (effect t)) :
    mapOn f f (registerHandler P i effect s) = mapOn f f (registerHandler Q i effect t) := by
  simp only [registerHandler, mapOn]; rw [hf.finished i he]

theorem readingHandler_erased {i : Instr} {mode : AddressingMode} {effect : Byte → State → State}
    (he : ∀ v {s t}, f s = f t → f (effect v s) = f (effect v t)) :
    mapOn f f (readingHandler P i mode effect s) = mapOn f f (readingHandler Q i mode effect t) :=
  andThen_erased (fetchOperand_erased hf h _) fun o => by
    simp only [mapOn]; rw [hf.finished i (he _ (hf.charge _ h))]

theorem modifyingHandler_erased {i : Instr} {mode : AddressingMode} {result : Byte → State → Byte}
    {effect : Byte → State → State} (hr : ∀ v {s t}, f s = f t → result v s = result v t)
    (he : ∀ v {s t}, f s = f t → f (effect v s) = f (effect v t)) :
    mapOn f f (modifyingHandler P i mode result effect s) = mapOn f f (modifyingHandler Q i mode result effect t) := by
  refine andThen_erased (fetchOperand_erased hf h _) fun o => ?_
  have h1 := he o.value (hf.charge o.penalty h)
  simp only [memWrite, hr _ h, hf.mem h1, write_eq hf]
  cases (effect o.value (chargePenalty o.penalty t)).mem.write Q o.addr (result o.value t) <;>
    simp only [mapOn, andThen, raise, Fault.mapAfter]
  · rw [h1]
  · rw [hf.finished i (hf.stored _ h1)]

end Handlers

section Effects

variable {P Q : Params} {f : State → State} (hf : ErasesUnused P Q f) {s t : State} (h : f s = f t)
include hf h

theorem setZN_erased (r : Byte) : f (setZN r s) = f (setZN r t) := hf.setZN _ _ h

theorem setAccumulator_erased (op : Byte → Byte → Byte) (m : Byte) :
    f (setAccumulator (op s.a m) s) = f (setAccumulator (op t.a m) t) := by
  rw [hf.a h]; exact setZN_erased hf (hf.setA _ h) _

theorem addWithCarry_erased (m : Byte) : f (addWithCarry m s) = f (addWithCarry m t) := by
  have h1 : adcSum s.a m s.flagC = adcSum t.a m t.flagC := by rw [hf.a h, hf.flagC h]
  have h2 : adcValue s.flagD = adcValue t.flagD := by rw [hf.flagD h]
  have h3 : adcCarry s.flagD = adcCarry t.flagD := by rw [hf.flagD h]
  have h4 : adcOverflow s.a = adcOverflow t.a := by rw [hf.a h]
  simp only [addWithCarry, h1, h2, h3, h4]
  exact setZN_erased hf (hf.setA _ (hf.setV (adcOverflow t.a m (adcSum t.a m t.flagC))
    (hf.setC (adcCarry t.flagD (adcSum t.a m t.flagC)) h))) _

theorem bitTest_erased (m : Byte) : f (bitTest m s) = f (bitTest m t) := by
  have h1 : isZero (m &&& s.a) = isZero (m &&& t.a) := by rw [hf.a h]
  simp only [bitTest, h1]
  exact hf.setV (m.getLsbD 6) (hf.setZN (isZero (m &&& t.a)) (m.getLsbD 7) h)

theorem compareFlags_erased (r m : Byte) : f (compareFlags r m s) = f (compareFlags r m t) :=
  hf.setC (decide (m.toNat ≤ r.toNat)) (hf.setZN (decide (compareDiff r m = 0)) (decide (127 < compareDiff r m)) h)

theorem setShiftFlags_erased (r : Byte × Bool) : f (setShiftFlags r s) = f (setShiftFlags r t) :=
  setZN_erased hf (hf.setC _ h) _

theorem takeBranch_erased (off : Byte) : f (takeBranch off s) = f (takeBranch off t) := by
  simp only [takeBranch, hf.pc h]
  exact hf.jumped _ _ h

theorem branchHandler_erased (i : Instr) (cond : Bool) :
    mapOn f f (branchHandler P i cond s) = mapOn f f (branchHandler Q i cond t) := by
  unfold branchHandler
  split
  · exact readingHandler_erased hf.toErasesUnread h fun v _ _ h => takeBranch_erased hf h v
  · simp only [mapOn]; rw [hf.finished i h]

theorem shiftHandler_erased (i : Instr) (m : ShiftMode) (op : Byte → Bool → Byte × Bool) :
    mapOn f f (shiftHandler P i m op s) = mapOn f f (shiftHandler Q i m op t) := by
  have memory : ∀ mode, mapOn f f (modifyingHandler P i mode (fun v t => (op v t.flagC).1)
      (fun v t => setShiftFlags (op v t.flagC) t) s) = mapOn f f (modifyingHandler Q i mode
      (fun v t => (op v t.flagC).1) (fun v t => setShiftFlags (op v t.flagC) t) t) := fun mode => by
    refine modifyingHandler_erased hf.toErasesUnread h (fun v s t h => by rw [hf.flagC h]) fun v s t h => ?_
    have h1 : op v s.flagC = op v t.flagC := by rw [hf.flagC h]
    simp only [h1]
    exact setShiftFlags_erased hf h _
  cases m <;> simp only [shiftHandler, memory]
  refine registerHandler_erased hf.toErasesUnread ?_
  have h1 : op s.a s.flagC = op t.a t.flagC := by rw [hf.a h, hf.flagC h]
  simp only [h1]
  exact setShiftFlags_erased hf (hf.setA _ h) _

/-- No instruction tells apart what `f` does not. -/
theorem execAt_erased (i : Instr) : mapOn f f (execAt P i s) = mapOn f f (execAt Q i t) := by
  have hu := hf.toErasesUnread
  cases i
  case adc => exact readingHandler_erased hu h fun v _ _ h => addWithCarry_erased hf h v
  case and =>
    simp only [execAt, execAnd]
    exact readingHandler_erased hu h fun v _ _ h => setAccumulator_erased hf h (· &&& ·) v
  case ora =>
    simp only [execAt, execOra]
    exact readingHandler_erased hu h fun v _ _ h => setAccumulator_erased hf h (· ||| ·) v
  case eor =>
    simp only [execAt, execEor]
    exact readingHandler_erased hu h fun v _ _ h => setAccumulator_erased hf h (· ^^^ ·) v
  case asl | lsr | rol | ror => exact shiftHandler_erased hf h _ _ _
  case bit => exact readingHandler_erased hu h fun v _ _ h => bitTest_erased hf h v
  case cmp =>
    simp only [execAt, execCmp]
    refine readingHandler_erased hu h fun v s t h => ?_
    have h1 : compareFlags s.a = compareFlags t.a := by rw [hf.a h]
    rw [h1]; exact compareFlags_erased hf h _ v
  case cpx =>
    simp only [execAt, execCpx]
    refine readingHandler_erased hu h fun v s t h => ?_
    have h1 : compareFlags s.x = compareFlags t.x := by rw [hf.x h]
    rw [h1]; exact compareFlags_erased hf h _ v
  case cpy =>
    simp only [execAt, execCpy]
    refine readingHandler_erased hu h fun v s t h => ?_
    have h1 : compareFlags s.y = compareFlags t.y := by rw [hf.y h]
    rw [h1]; exact compareFlags_erased hf h _ v
  case inc | dec =>
    simp only [execAt, execInc, execDec]
    exact modifyingHandler_erased hu h (fun _ _ _ _ => rfl) fun _ _ _ h => setZN_erased hf h _
  case inx | dex =>
    simp only [execAt, execInx, execDex]
    refine registerHandler_erased hu ?_
    simp only [hf.x h]
    exact setZN_erased hf (hf.setX _ h) _
  case iny | dey =>
    simp only [execAt, execIny, execDey]
    refine registerHandler_erased hu ?_
    simp only [hf.y h]
    exact setZN_erased hf (hf.setY _ h) _
  case bcc | bcs => simp only [execAt, execBcc, execBcs, hf.flagC h]; exact branchHandler_erased hf h _ _
  case beq | bne => simp only [execAt, execBeq, execBne, hf.flagZ h]; exact branchHandler_erased hf h _ _
  case bmi | bpl => simp only [execAt, execBmi, execBpl, hf.flagN h]; exact branchHandler_erased hf h _ _
  case bvc | bvs => simp only [execAt, execBvc, execBvs, hf.flagV h]; exact branchHandler_erased hf h _ _
  case jmp =>
    exact andThen_erased (resolve_erased hu h _) fun _ => congrArg Host.Outcome.next (hf.jmp _ h)
  case lda =>
    simp only [execAt, execLda]
    exact readingHandler_erased hu h fun v _ _ h => setZN_erased hf (hf.setA v h) v
  case ldx =>
    simp only [execAt, execLdx]
    exact readingHandler_erased hu h fun v _ _ h => setZN_erased hf (hf.setX v h) v
  case ldy =>
    simp only [execAt, execLdy]
    exact readingHandler_erased hu h fun v _ _ h => setZN_erased hf (hf.setY v h) v
  case stx =>
    simp only [execAt, execStx]
    exact readingHandler_erased hu h fun v _ _ h => hf.setX v h
  case sty =>
    simp only [execAt, execSty]
    exact readingHandler_erased hu h fun v _ _ h => hf.setY v h
  case clc | sec =>
    simp only [execAt, execClc, execSec]
    exact registerHandler_erased hu (hf.setC _ h)
  case cld | sed =>
    simp only [execAt, execCld, execSed]
    exact registerHandler_erased hu (hf.setD _ h)
  case cli | sei =>
    simp only [execAt, execCli, execSei]
    exact registerHandler_erased hu (hf.setI _ h)
  case clv =>
    simp only [execAt, execClv]
    exact registerHandler_erased hu (hf.setV _ h)
  all_goals
    simp only [execAt, execBrk, execJsr, execRts, execRti, execPha, execPla, execPhp, execPlp, execUnsupported,
      unimplementedHandler, raise, mapOn, Fault.mapAfter, h]

/-- No step does either, when writing `CUR_OP` with the increment of `PC`, and the replenishment, do not. -/
theorem stepAt_erased
    (fetched : ∀ {s t : State} op, f s = f t → f { s with curOp := op, pc := t.pc + 1 } = f { t with curOp := op, pc := t.pc + 1 })
    (replenished : ∀ {s t : State}, f s = f t → f (replenish P s) = f (replenish Q t)) :
    mapOn f f (stepAt P s) = mapOn f f (stepAt Q t) := by
  have he := fun op => execAt_erased hf (fetched op h) (decodeOpcode op)
  have hm := memRead_erased hf.toErasesUnread h t.pc.toNat
  simp only [stepAt, fetchOpcode, hf.pc h]
  cases hs : memRead P t.pc.toNat s <;> cases ht : memRead Q t.pc.toNat t <;> simp_all [mapOn, andThen]
  rename_i op
  have hop := he op
  revert hop
  generalize execAt P (decodeOpcode op) _ = o
  generalize execAt Q (decodeOpcode op) _ = o'
  cases o <;> cases o' <;> simp_all
  exact replenished

end Effects

end Sys2Proof.Machine
end

