-- ==== Sys2Proof/Tests/Slice0.lean ====
section
/-! SUPPORT. The model's own tests. Decoding: words written out from R52 to R55. Steps: vectors of spec/95_test_vectors.md, each named
after its vector, with the result the vector gives; one step on a small state. Host operations: the vectors S8-7 and D-FT. Then one
witness for each statement with hypotheses. -/

namespace Sys2Proof.Tests

open Sys2Proof Sys2Proof.Machine

/-- The parameters of this hardware. -/
abbrev chip : Params := Config.params

/-- The same with another capacity. -/
abbrev withCapacity (n : Nat) : Params := { Config.params with capacity := n }

/-- The bytes placed in memory from an address on. -/
def place : Nat → List Byte → State → State
  | _, [], s => s
  | addr, b :: bs, s => place (addr + 1) bs (s.poke addr b)

/-- `s` with the code at `pc`, the data blocks in memory, and `PC` at the code. -/
def ready (pc : Nat) (code : List Byte) (data : List (Nat × List Byte)) (s : State) : State :=
  { place pc code (data.foldl (fun t d => place d.1 d.2 t) s) with pc := BitVec.ofNat 16 pc }

/-- The flags as the spec's vectors list them: `N V D I Z C`. -/
def flagsOf (t : State) : BitVec 6 :=
  BitVec.ofNat 6 (t.flagN.toNat * 32 + t.flagV.toNat * 16 + t.flagD.toNat * 8 + t.flagI.toNat * 4 + t.flagZ.toNat * 2 + t.flagC.toNat)

/-- Something of the next state, when there is one. -/
def seen {τ α : Type} (o : Host.Outcome τ Fault Refusal) (f : τ → α) : Option α :=
  match o with
  | .next t => some (f t)
  | _ => none

/-- A fault without the state it leaves. -/
inductive Kind where
  | outOfRange (addr : Nat)
  | invalidLoad (offset len : Nat)
  | unsupportedOpcode (byte : Byte)
  | unimplemented (byte : Byte)
deriving DecidableEq, Repr

/-- The fault and something of the state it leaves, when there is a fault. -/
def faulted {τ α : Type} (o : Host.Outcome τ Fault Refusal) (f : State → α) : Option (Kind × α) :=
  match o with
  | .fault (.outOfRange addr t) => some (.outOfRange addr, f t)
  | .fault (.invalidLoad offset len t) => some (.invalidLoad offset len, f t)
  | .fault (.unsupportedOpcode b t) => some (.unsupportedOpcode b, f t)
  | .fault (.unimplemented b t) => some (.unimplemented b, f t)
  | _ => none

/-- Each opcode byte decodes to the instruction beside it. -/
abbrev decodesAs (rows : List (Byte × Instr)) : Prop := ∀ row ∈ rows, decodeOpcode row.1 = row.2

/-! ### Decoding -/

/-- R52, the rows ADC, AND, ORA, EOR. -/
theorem test_decode_logic_and_arithmetic :
    decodesAs [(0x69, .adc .immediate), (0x65, .adc .zeroPage), (0x75, .adc .zeroPageX), (0x6D, .adc .absolute),
      (0x7D, .adc .absoluteX), (0x79, .adc .absoluteY), (0x61, .adc .indexedIndirect), (0x71, .adc .indirectIndexed)] ∧
    decodesAs [(0x29, .and .immediate), (0x25, .and .zeroPage), (0x35, .and .zeroPageX), (0x2D, .and .absolute),
      (0x3D, .and .absoluteX), (0x39, .and .absoluteY), (0x21, .and .indexedIndirect), (0x31, .and .indirectIndexed)] ∧
    decodesAs [(0x09, .ora .immediate), (0x05, .ora .zeroPage), (0x15, .ora .zeroPageX), (0x0D, .ora .absolute),
      (0x1D, .ora .absoluteX), (0x19, .ora .absoluteY), (0x01, .ora .indexedIndirect), (0x11, .ora .indirectIndexed)] ∧
    decodesAs [(0x49, .eor .immediate), (0x45, .eor .zeroPage), (0x55, .eor .zeroPageX), (0x4D, .eor .absolute),
      (0x5D, .eor .absoluteX), (0x59, .eor .absoluteY), (0x41, .eor .indexedIndirect), (0x51, .eor .indirectIndexed)] := by
  decide

/-- R52, the rows ASL, LSR, ROL, ROR. -/
theorem test_decode_shifts :
    decodesAs [(0x0A, .asl .accumulator), (0x06, .asl .zeroPage), (0x16, .asl .zeroPageX), (0x0E, .asl .absolute),
      (0x1E, .asl .absoluteX)] ∧
    decodesAs [(0x4A, .lsr .accumulator), (0x46, .lsr .zeroPage), (0x56, .lsr .zeroPageX), (0x4E, .lsr .absolute),
      (0x5E, .lsr .absoluteX)] ∧
    decodesAs [(0x2A, .rol .accumulator), (0x26, .rol .zeroPage), (0x36, .rol .zeroPageX), (0x2E, .rol .absolute),
      (0x3E, .rol .absoluteX)] ∧
    decodesAs [(0x6A, .ror .accumulator), (0x66, .ror .zeroPage), (0x76, .ror .zeroPageX), (0x6E, .ror .absolute),
      (0x7E, .ror .absoluteX)] := by
  decide

/-- R52, the rows BIT, CMP, CPX, CPY. -/
theorem test_decode_bit_and_compares :
    decodesAs [(0x24, .bit .zeroPage), (0x2C, .bit .absolute)] ∧
    decodesAs [(0xC9, .cmp .immediate), (0xC5, .cmp .zeroPage), (0xD5, .cmp .zeroPageX), (0xCD, .cmp .absolute),
      (0xDD, .cmp .absoluteX), (0xD9, .cmp .absoluteY), (0xC1, .cmp .indexedIndirect), (0xD1, .cmp .indirectIndexed)] ∧
    decodesAs [(0xE0, .cpx .immediate), (0xE4, .cpx .zeroPage), (0xEC, .cpx .absolute)] ∧
    decodesAs [(0xC0, .cpy .immediate), (0xC4, .cpy .zeroPage), (0xCC, .cpy .absolute)] := by
  decide

/-- R52, the rows DEC, INC, DEX, DEY, INX, INY. -/
theorem test_decode_counts :
    decodesAs [(0xC6, .dec .zeroPage), (0xD6, .dec .zeroPageX), (0xCE, .dec .absolute), (0xDE, .dec .absoluteX)] ∧
    decodesAs [(0xE6, .inc .zeroPage), (0xF6, .inc .zeroPageX), (0xEE, .inc .absolute), (0xFE, .inc .absoluteX)] ∧
    decodesAs [(0xCA, .dex)] ∧
    decodesAs [(0x88, .dey)] ∧
    decodesAs [(0xE8, .inx)] ∧
    decodesAs [(0xC8, .iny)] := by
  decide

/-- R52, the rows BCC, BCS, BEQ, BNE, BMI, BPL, BVC, BVS, JMP. -/
theorem test_decode_control_transfer :
    decodesAs [(0x90, .bcc)] ∧
    decodesAs [(0xB0, .bcs)] ∧
    decodesAs [(0xF0, .beq)] ∧
    decodesAs [(0xD0, .bne)] ∧
    decodesAs [(0x30, .bmi)] ∧
    decodesAs [(0x10, .bpl)] ∧
    decodesAs [(0x50, .bvc)] ∧
    decodesAs [(0x70, .bvs)] ∧
    decodesAs [(0x4C, .jmp)] := by
  decide

/-- R52, the rows LDA, LDX, LDY, STX, STY. -/
theorem test_decode_loads :
    decodesAs [(0xA9, .lda .immediate), (0xA5, .lda .zeroPage), (0xB5, .lda .zeroPageX), (0xAD, .lda .absolute),
      (0xBD, .lda .absoluteX), (0xB9, .lda .absoluteY), (0xA1, .lda .indexedIndirect), (0xB1, .lda .indirectIndexed)] ∧
    decodesAs [(0xA2, .ldx .immediate), (0xA6, .ldx .zeroPage), (0xB6, .ldx .zeroPageY), (0xAE, .ldx .absolute),
      (0xBE, .ldx .absoluteY)] ∧
    decodesAs [(0xA0, .ldy .immediate), (0xA4, .ldy .zeroPage), (0xB4, .ldy .zeroPageX), (0xAC, .ldy .absolute),
      (0xBC, .ldy .absoluteX)] ∧
    decodesAs [(0x86, .stx .zeroPage), (0x96, .stx .zeroPageY), (0x8E, .stx .absolute)] ∧
    decodesAs [(0x84, .sty .zeroPage), (0x94, .sty .zeroPageX), (0x8C, .sty .absolute)] := by
  decide

/-- R52, the rows CLC, CLD, CLI, CLV, SEC, SED, SEI. -/
theorem test_decode_flag_instructions :
    decodesAs [(0x18, .clc)] ∧
    decodesAs [(0xD8, .cld)] ∧
    decodesAs [(0x58, .cli)] ∧
    decodesAs [(0xB8, .clv)] ∧
    decodesAs [(0x38, .sec)] ∧
    decodesAs [(0xF8, .sed)] ∧
    decodesAs [(0x78, .sei)] := by
  decide

/-- R54. -/
theorem test_decode_unimplemented :
    decodesAs [(0x00, .brk), (0x20, .jsr), (0x60, .rts), (0x40, .rti), (0x48, .pha), (0x68, .pla), (0x08, .php),
      (0x28, .plp)] := by
  decide

/-- R55: bytes of the list are unsupported, NOP, STA and the indirect JMP of the 6502 among them. -/
theorem test_decode_unsupported :
    ([0x02, 0x6C, 0x7F, 0x80, 0x85, 0xEA, 0xFF] : List Byte).all (fun b => decodeOpcode b == .unsupported b) = true := by decide

/-- R48, R49, R65: operand bytes follow the opcode, the low one first; what follows is left. -/
theorem test_decode_operands :
    decode [0x4C, 0x34, 0x12, 0x38] = .ok ⟨.jmp, .two 0x34 0x12, [0x38]⟩ ∧ decode [0xA9, 0x10] = .ok ⟨.lda .immediate, .one 0x10, []⟩ ∧
      decode [0x18] = .ok ⟨.clc, .none, []⟩ ∧ encode (.sty .absolute) (.two 0x00 0x03) = [0x8C, 0x00, 0x03] := by decide

/-- A byte sequence that ends inside an instruction is rejected by name. -/
theorem test_decode_truncated :
    decode [] = .error .noOpcode ∧ decode [0x6D, 0x34] = .error (.operandMissing (.adc .absolute)) ∧
      decode [0x69] = .error (.operandMissing (.adc .immediate)) := by decide

/-- R50: the offset byte is sign and magnitude. -/
theorem test_branch_displacement :
    branchDisplacement 0x7F = 127 ∧ branchDisplacement 0x80 = 0 ∧ branchDisplacement 0x83 = -3 ∧ branchDisplacement 0xFF = -127 := by
  decide

/-- `WellFormed` refuses an executable byte dressed as an unsupported one, and an unimplemented one. -/
theorem test_wellFormed_refuses :
    Instr.wf (.unsupported 0x69) = false ∧ Instr.wf (.unsupported 0x00) = false ∧ Instr.wf (.unsupported 0xEA) = true ∧
      Instr.wf (.adc .immediate) = true := by decide

/-- `withFetchWord` places the word where `step` fetches it, here as the first instruction after reset. -/
theorem test_withFetchWord :
    seen (step (State.reset.withFetchWord 24 0x12344C)) (fun t => (t.pc, t.curOp)) = some (0x1234, 0x4C) ∧
      seen (step (State.reset.withFetchWord 8 0x38)) (fun t => (t.pc, t.flagC)) = some (0x0001, true) := by decide

/-! ### One step: the spec's vectors -/

/-- D-ADC-10. -/
theorem test_adc_D_ADC_10 :
    seen (step (ready 0x0200 [0x69, 0x50] [] { State.reset with a := 0x50, flagD := true }))
      (fun t => (t.a, flagsOf t)) = some (0x3C, 0b011001) := by decide

/-- D-ADC-16. -/
theorem test_adc_D_ADC_16 :
    seen (step (ready 0x0200 [0x79, 0xF0, 0xFF] [(0x0010, [0x03])] { State.reset with a := 0x01, y := 0x20 }))
      (fun t => (t.a, t.cyc)) = some (0x04, 15) := by decide

/-- D-LOG-2. -/
theorem test_and_D_LOG_2 :
    seen (step (ready 0x0200 [0x29, 0x0F] [] { State.reset with a := 0xF0, flagV := true, flagC := true }))
      (fun t => (t.a, flagsOf t)) = some (0x00, 0b010011) := by decide

/-- D-LOG-4. -/
theorem test_and_D_LOG_4 :
    seen (step (ready 0x0200 [0x31, 0xFF] [(0x0000, [0x99]), (0x0100, [0x20]), (0x2001, [0x3C])] { State.reset with a := 0xFF, y := 0x01 }))
      (fun t => t.a) = some 0x3C := by decide

/-- D-LOG-7. -/
theorem test_ora_D_LOG_7 :
    seen (step (ready 0x0200 [0x1D, 0xFF, 0x20] [(0x2100, [0x40])] { State.reset with a := 0x01, x := 0x01 }))
      (fun t => (t.a, t.cyc)) = some (0x41, 16) := by decide

/-- D-LOG-8. -/
theorem test_ora_D_LOG_8 :
    seen (step (ready 0x0200 [0x01, 0xF0] [(0x00FF, [0x34]), (0x0100, [0x12]), (0x1234, [0x80])] { State.reset with x := 0x0F }))
      (fun t => (t.a, flagsOf t)) = some (0x80, 0b100000) := by decide

/-- D-LOG-10. -/
theorem test_eor_D_LOG_10 :
    seen (step (ready 0x0200 [0x49, 0xFF] [] { State.reset with a := 0x0F }))
      (fun t => (t.a, flagsOf t)) = some (0xF0, 0b100000) := by decide

/-- D-LOG-12. -/
theorem test_eor_D_LOG_12 :
    seen (step (ready 0x0200 [0x55, 0x10] [(0x0012, [0x10])] { State.reset with a := 0x11, x := 0x02 }))
      (fun t => t.a) = some 0x01 := by decide

/-- D-SH-2. -/
theorem test_asl_D_SH_2 :
    seen (step (ready 0x0200 [0x0A] [] { State.reset with a := 0x80 }))
      (fun t => (t.a, flagsOf t)) = some (0x00, 0b000011) := by decide

/-- D-SH-5. -/
theorem test_asl_D_SH_5 :
    seen (step (ready 0x0200 [0x1E, 0xF0, 0xFF] [(0x0010, [0x01])] { State.reset with x := 0x20 }))
      (fun t => (t.mem.read chip 0x0010, t.cyc)) = some (some 0x02, 13) := by decide

/-- D-SH-6. -/
theorem test_lsr_D_SH_6 :
    seen (step (ready 0x0200 [0x5E, 0xF0, 0xFF] [(0x0010, [0x01])] { State.reset with x := 0x20 }))
      (fun t => (t.mem.read chip 0x0010, t.cyc)) = some (some 0x00, 12) := by decide

/-- D-SH-8. -/
theorem test_lsr_D_SH_8 :
    seen (step (ready 0x0200 [0x4A] [] { State.reset with a := 0xFF, flagN := true }))
      (fun t => (t.a, flagsOf t)) = some (0x7F, 0b000001) := by decide

/-- D-SH-9. -/
theorem test_rol_D_SH_9 :
    seen (step (ready 0x0200 [0x2A] [] { State.reset with a := 0x40, flagC := true }))
      (fun t => (t.a, flagsOf t)) = some (0x81, 0b100000) := by decide

/-- D-SH-11. -/
theorem test_rol_D_SH_11 :
    seen (step (ready 0x0200 [0x36, 0x10] [(0x0011, [0x80])] { State.reset with x := 0x01, flagC := true }))
      (fun t => (t.mem.read chip 0x0011, flagsOf t)) = some (some 0x01, 0b000001) := by decide

/-- D-SH-12. -/
theorem test_ror_D_SH_12 :
    seen (step (ready 0x0200 [0x6A] [] { State.reset with a := 0x01, flagC := true }))
      (fun t => (t.a, flagsOf t)) = some (0x80, 0b100001) := by decide

/-- D-SH-20. -/
theorem test_ror_D_SH_20 :
    seen (step (ready 0x0200 [0x7E, 0xFF, 0xFF] [(0x0000, [0x01])] { State.reset with x := 0x01 }))
      (fun t => (t.mem.read chip 0x0000, t.cyc)) = some (some 0x00, 12) := by decide

/-- D-BIT-2. -/
theorem test_bit_D_BIT_2 :
    seen (step (ready 0x0200 [0x2C, 0x00, 0x30] [(0x3000, [0xC0])] State.reset)) (fun t => flagsOf t) = some 0b110010 := by decide

/-- D-BIT-4. -/
theorem test_bit_D_BIT_4 :
    seen (step (ready 0x0200 [0x24, 0x20] [(0x0020, [0x21])] { State.reset with a := 0x3F, flagZ := true }))
      (fun t => flagsOf t) = some 0b000000 := by decide

/-- S8-5a. -/
theorem test_cmp_S8_5a :
    seen (step (ready 0x0200 [0xC9, 0x01] [] State.reset)) (fun t => (t.a, flagsOf t)) = some (0x00, 0b100000) := by decide

/-- D-CMP-6. -/
theorem test_cmp_D_CMP_6 :
    seen (step (ready 0x0200 [0xC9, 0xFF] [] State.reset)) (fun t => flagsOf t) = some 0b100000 := by decide

/-- D-CMP-4. -/
theorem test_cpx_D_CMP_4 :
    seen (step (ready 0x0200 [0xE0, 0x10] [] { State.reset with x := 0x10 })) (fun t => flagsOf t) = some 0b000011 := by decide

/-- D-CMP-18. -/
theorem test_cpx_D_CMP_18 :
    seen (step (ready 0x0200 [0xEC, 0x00, 0x30] [(0x3000, [0x01])] State.reset)) (fun t => flagsOf t) = some 0b100000 := by decide

/-- D-CMP-5. -/
theorem test_cpy_D_CMP_5 :
    seen (step (ready 0x0200 [0xC0, 0x02] [] { State.reset with y := 0x01 })) (fun t => flagsOf t) = some 0b100000 := by decide

/-- D-CMP-20. -/
theorem test_cpy_D_CMP_20 :
    seen (step (ready 0x0200 [0xCC, 0x00, 0x30] [(0x3000, [0x7F])] { State.reset with y := 0xFF }))
      (fun t => flagsOf t) = some 0b100001 := by decide

/-- D-INC-1. -/
theorem test_dec_D_INC_1 :
    seen (step (ready 0x0300 [0xCE, 0x00, 0x02] [] State.reset))
      (fun t => (t.mem.read chip 0x0200, flagsOf t)) = some (some 0xFF, 0b100000) := by decide

/-- D-INC-4. -/
theorem test_dec_D_INC_4 :
    seen (step (ready 0x0200 [0xDE, 0xF0, 0xFF] [(0x0010, [0x10])] { State.reset with x := 0x20 }))
      (fun t => (t.mem.read chip 0x0010, t.cyc)) = some (some 0x0F, 12) := by decide

/-- D-INC-6. -/
theorem test_inc_D_INC_6 :
    seen (step (ready 0x0200 [0xE6, 0x10] [(0x0010, [0x7F])] { State.reset with flagC := true }))
      (fun t => (t.mem.read chip 0x0010, flagsOf t)) = some (some 0x80, 0b100001) := by decide

/-- D-INC-7. -/
theorem test_inc_D_INC_7 :
    seen (step (ready 0x0200 [0xF6, 0xFF] [(0x0001, [0x09])] { State.reset with x := 0x02 }))
      (fun t => t.mem.read chip 0x0001) = some (some 0x0A) := by decide

/-- D-INC-10. -/
theorem test_dex_D_INC_10 :
    seen (step (ready 0x0200 [0xCA] [] { State.reset with x := 0x01 }))
      (fun t => (t.x, flagsOf t)) = some (0x00, 0b000010) := by decide

/-- D-INC-11. -/
theorem test_dex_D_INC_11 :
    seen (step (ready 0x0200 [0xCA] [] State.reset)) (fun t => (t.x, flagsOf t)) = some (0xFF, 0b100000) := by decide

/-- D-INC-12. -/
theorem test_dey_D_INC_12 :
    seen (step (ready 0x0200 [0x88] [] { State.reset with y := 0x80, flagN := true }))
      (fun t => (t.y, flagsOf t)) = some (0x7F, 0b000000) := by decide

/-- D-INC-13. -/
theorem test_dey_D_INC_13 :
    seen (step (ready 0x0200 [0x88] [] State.reset)) (fun t => (t.y, flagsOf t)) = some (0xFF, 0b100000) := by decide

/-- D-INC-14. -/
theorem test_inx_D_INC_14 :
    seen (step (ready 0x0200 [0xE8] [] { State.reset with x := 0x7F }))
      (fun t => (t.x, flagsOf t)) = some (0x80, 0b100000) := by decide

/-- D-INC-15. -/
theorem test_inx_D_INC_15 :
    seen (step (ready 0x0200 [0xE8] [] { State.reset with x := 0xFF }))
      (fun t => (t.x, flagsOf t)) = some (0x00, 0b000010) := by decide

/-- D-INC-16. -/
theorem test_iny_D_INC_16 :
    seen (step (ready 0x0200 [0xC8] [] { State.reset with flagZ := true }))
      (fun t => (t.y, flagsOf t)) = some (0x01, 0b000000) := by decide

/-- D-INC-17. -/
theorem test_iny_D_INC_17 :
    seen (step (ready 0x0200 [0xC8] [] { State.reset with y := 0xFF, flagN := true }))
      (fun t => (t.y, flagsOf t)) = some (0x00, 0b000010) := by decide

/-- D-BR-2. -/
theorem test_bcc_D_BR_2 :
    seen (step (ready 0x0000 [0x90, 0x05] [] { State.reset with flagC := true }))
      (fun t => (t.pc, t.cyc)) = some (0x0002, 18) := by decide

/-- D-BR-13. -/
theorem test_bcc_D_BR_13 :
    seen (step (ready 0x0300 [0x90, 0xFF] [] State.reset)) (fun t => (t.pc, t.cyc)) = some (0x0283, 17) := by decide

/-- D-BR-3. -/
theorem test_bcs_D_BR_3 :
    seen (step (ready 0xFFF0 [0xB0, 0x7F] [] { State.reset with flagC := true }))
      (fun t => (t.pc, t.cyc)) = some (0x0071, 16) := by decide

/-- D-BR-17. -/
theorem test_bcs_D_BR_17 :
    seen (step (ready 0x0400 [0xB0, 0x05] [] State.reset)) (fun t => (t.pc, t.cyc)) = some (0x0402, 18) := by decide

/-- D-BR-4. -/
theorem test_beq_D_BR_4 :
    seen (step (ready 0x0600 [0xF0, 0x02] [] { State.reset with flagZ := true }))
      (fun t => (t.pc, t.cyc)) = some (0x0604, 17) := by decide

/-- D-BR-18. -/
theorem test_beq_D_BR_18 :
    seen (step (ready 0x0400 [0xF0, 0x05] [] State.reset)) (fun t => (t.pc, t.cyc)) = some (0x0402, 18) := by decide

/-- D-BR-5. -/
theorem test_bne_D_BR_5 :
    seen (step (ready 0x0603 [0xD0, 0x83] [] State.reset)) (fun t => (t.pc, t.cyc)) = some (0x0602, 17) := by decide

/-- D-BR-19. -/
theorem test_bne_D_BR_19 :
    seen (step (ready 0x0400 [0xD0, 0x05] [] { State.reset with flagZ := true }))
      (fun t => (t.pc, t.cyc)) = some (0x0402, 18) := by decide

/-- D-BR-6. -/
theorem test_bmi_D_BR_6 :
    seen (step (ready 0x0002 [0x30, 0x85] [] { State.reset with flagN := true }))
      (fun t => (t.pc, t.cyc)) = some (0xFFFF, 16) := by decide

/-- D-BR-20. -/
theorem test_bmi_D_BR_20 :
    seen (step (ready 0x0400 [0x30, 0x05] [] State.reset)) (fun t => (t.pc, t.cyc)) = some (0x0402, 18) := by decide

/-- D-BR-7. -/
theorem test_bpl_D_BR_7 :
    seen (step (ready 0x0100 [0x10, 0x00] [] State.reset)) (fun t => (t.pc, t.cyc)) = some (0x0102, 17) := by decide

/-- D-BR-21. -/
theorem test_bpl_D_BR_21 :
    seen (step (ready 0x0400 [0x10, 0x05] [] { State.reset with flagN := true }))
      (fun t => (t.pc, t.cyc)) = some (0x0402, 18) := by decide

/-- D-BR-8. -/
theorem test_bvc_D_BR_8 :
    seen (step (ready 0x0200 [0x50, 0x10] [] { State.reset with flagV := true }))
      (fun t => (t.pc, t.cyc)) = some (0x0202, 18) := by decide

/-- D-BR-22. -/
theorem test_bvc_D_BR_22 :
    seen (step (ready 0x0400 [0x50, 0x05] [] State.reset)) (fun t => (t.pc, t.cyc)) = some (0x0407, 17) := by decide

/-- D-BR-9. -/
theorem test_bvs_D_BR_9 :
    seen (step (ready 0x00F0 [0x70, 0x7F] [] { State.reset with flagV := true }))
      (fun t => (t.pc, t.cyc)) = some (0x0171, 17) := by decide

/-- D-BR-23. -/
theorem test_bvs_D_BR_23 :
    seen (step (ready 0x0400 [0x70, 0x05] [] State.reset)) (fun t => (t.pc, t.cyc)) = some (0x0402, 18) := by decide

/-- D-JMP-1. -/
theorem test_jmp_D_JMP_1 :
    seen (step (ready 0x0600 [0x4C, 0x34, 0x12] [] State.reset)) (fun t => (t.pc, t.cyc)) = some (0x1234, 17) := by decide

/-- D-JMP-3. -/
theorem test_jmp_D_JMP_3 :
    faulted (step (ready 0xFFFE [0x4C, 0x00] [] State.reset))
      (fun t => (t.pc, t.cyc)) = some (.outOfRange 0x10000, 0xFFFF, 20) := by decide

/-- D-LD-2. -/
theorem test_lda_D_LD_2 :
    seen (step (ready 0x0200 [0xA9, 0x00] [] { State.reset with a := 0x55, flagN := true, flagV := true, flagC := true }))
      (fun t => (t.a, flagsOf t)) = some (0x00, 0b010011) := by decide

/-- D-LD-10. -/
theorem test_lda_D_LD_10 :
    seen (step (ready 0x0200 [0xA1, 0xFF] [(0x0000, [0x60]), (0x0100, [0x50]), (0x5000, [0x11]), (0x6000, [0x22])] State.reset))
      (fun t => t.a) = some 0x11 := by decide

/-- D-LD-15. -/
theorem test_ldx_D_LD_15 :
    seen (step (ready 0x0200 [0xB6, 0x10] [(0x0012, [0x77]), (0x0015, [0x99])] { State.reset with x := 0x02, y := 0x05 }))
      (fun t => t.x) = some 0x77 := by decide

/-- D-LD-17. -/
theorem test_ldx_D_LD_17 :
    seen (step (ready 0x0200 [0xBE, 0x00, 0x30] [(0x3002, [0x11]), (0x3005, [0x22])] { State.reset with x := 0x02, y := 0x05 }))
      (fun t => t.x) = some 0x22 := by decide

/-- D-LD-18. -/
theorem test_ldy_D_LD_18 :
    seen (step (ready 0x0200 [0xA0, 0x00] [] { State.reset with y := 0x07 }))
      (fun t => (t.y, flagsOf t)) = some (0x00, 0b000010) := by decide

/-- D-LD-22. -/
theorem test_ldy_D_LD_22 :
    seen (step (ready 0x0200 [0xBC, 0x01, 0xFF] [(0x0000, [0x08])] { State.reset with x := 0xFF }))
      (fun t => (t.y, t.cyc)) = some (0x08, 15) := by decide

/-- D-ST-1. -/
theorem test_stx_D_ST_1 :
    seen (step (ready 0x0200 [0x86, 0x10] [(0x0010, [0x07])] { State.reset with x := 0x55, flagZ := true }))
      (fun t => (t.x, flagsOf t)) = some (0x07, 0b000010) := by decide

/-- D-ST-2. -/
theorem test_stx_D_ST_2 :
    seen (step (ready 0x0200 [0x96, 0x10] [(0x0015, [0x99])] { State.reset with x := 0x02, y := 0x05 }))
      (fun t => (t.x, flagsOf t)) = some (0x00, 0b000000) := by decide

/-- D-ST-4. -/
theorem test_sty_D_ST_4 :
    seen (step (ready 0x0200 [0x8C, 0x00, 0x03] [(0x0300, [0xFE])] State.reset))
      (fun t => (t.y, flagsOf t)) = some (0xFE, 0b000000) := by decide

/-- D-ST-5. -/
theorem test_sty_D_ST_5 :
    seen (step (ready 0x0200 [0x84, 0x10] [] { State.reset with y := 0xAA, flagN := true }))
      (fun t => (t.y, flagsOf t)) = some (0x00, 0b100000) := by decide

/-- D-FL-1. -/
theorem test_clc_D_FL_1 :
    seen (step (ready 0x0200 [0x18] [] { State.reset with flagN := true, flagV := true, flagD := true, flagI := true, flagZ := true, flagC := true }))
      (fun t => (flagsOf t, t.cyc)) = some (0b111110, 18) := by decide

/-- D-FL-2. -/
theorem test_cld_D_FL_2 :
    seen (step (ready 0x0200 [0xD8] [] { State.reset with flagN := true, flagV := true, flagD := true, flagI := true, flagZ := true, flagC := true }))
      (fun t => (flagsOf t, t.cyc)) = some (0b110111, 18) := by decide

/-- D-FL-3. -/
theorem test_cli_D_FL_3 :
    seen (step (ready 0x0200 [0x58] [] { State.reset with flagN := true, flagV := true, flagD := true, flagI := true, flagZ := true, flagC := true }))
      (fun t => (flagsOf t, t.cyc)) = some (0b111011, 18) := by decide

/-- D-FL-4. -/
theorem test_clv_D_FL_4 :
    seen (step (ready 0x0200 [0xB8] [] { State.reset with flagN := true, flagV := true, flagD := true, flagI := true, flagZ := true, flagC := true }))
      (fun t => (flagsOf t, t.cyc)) = some (0b101111, 18) := by decide

/-- D-FL-5. -/
theorem test_sec_D_FL_5 :
    seen (step (ready 0x0200 [0x38] [] State.reset)) (fun t => (flagsOf t, t.cyc)) = some (0b000001, 18) := by decide

/-- D-FL-6. -/
theorem test_sed_D_FL_6 :
    seen (step (ready 0x0200 [0xF8] [] State.reset)) (fun t => (flagsOf t, t.cyc)) = some (0b001000, 18) := by decide

/-- D-FL-7. -/
theorem test_sei_D_FL_7 :
    seen (step (ready 0x0200 [0x78] [] State.reset)) (fun t => (flagsOf t, t.cyc)) = some (0b000100, 18) := by decide

/-- D-FT-1. -/
theorem test_brk_D_FT_1 :
    faulted (step (ready 0x0000 [0x00] [] State.reset))
      (fun t => (t.pc, t.cyc, t.curOp)) = some (.unimplemented 0x00, 0x0001, 20, 0x00) := by decide

/-- D-FT-2. -/
theorem test_jsr_D_FT_2 :
    faulted (step (ready 0x0600 [0x20, 0x00, 0x30] [] State.reset))
      (fun t => (t.pc, t.cyc, t.curOp)) = some (.unimplemented 0x20, 0x0601, 20, 0x20) := by decide

/-- D-FT-3. -/
theorem test_rts_D_FT_3 :
    faulted (step (ready 0x0600 [0x60] [] State.reset))
      (fun t => (t.pc, t.cyc, t.curOp)) = some (.unimplemented 0x60, 0x0601, 20, 0x60) := by decide

/-- D-FT-4. -/
theorem test_rti_D_FT_4 :
    faulted (step (ready 0x0600 [0x40] [] State.reset))
      (fun t => (t.pc, t.cyc, t.curOp)) = some (.unimplemented 0x40, 0x0601, 20, 0x40) := by decide

/-- D-FT-5. -/
theorem test_pha_D_FT_5 :
    faulted (step (ready 0x0600 [0x48] [] { State.reset with a := 0x77 }))
      (fun t => (t.pc, t.cyc, t.curOp)) = some (.unimplemented 0x48, 0x0601, 20, 0x48) := by decide

/-- D-FT-6. -/
theorem test_pla_D_FT_6 :
    faulted (step (ready 0x0600 [0x68] [] State.reset))
      (fun t => (t.pc, t.cyc, t.curOp)) = some (.unimplemented 0x68, 0x0601, 20, 0x68) := by decide

/-- D-FT-7. -/
theorem test_php_D_FT_7 :
    faulted (step (ready 0x0600 [0x08] [] State.reset))
      (fun t => (t.pc, t.cyc, t.curOp)) = some (.unimplemented 0x08, 0x0601, 20, 0x08) := by decide

/-- D-FT-8. -/
theorem test_plp_D_FT_8 :
    faulted (step (ready 0x0600 [0x28] [] State.reset))
      (fun t => (t.pc, t.cyc, t.curOp)) = some (.unimplemented 0x28, 0x0601, 20, 0x28) := by decide

/-- D-FT-10. -/
theorem test_unsupported_D_FT_10 :
    faulted (step (ready 0xFFFF [0xFF] [] State.reset))
      (fun t => (t.pc, t.cyc, t.curOp)) = some (.unsupportedOpcode 0xFF, 0x0000, 20, 0xFF) := by decide

/-- D-FT-12. -/
theorem test_unsupported_D_FT_12 :
    faulted (step (ready 0x0200 [0x85, 0x10] [] { State.reset with a := 0x10 }))
      (fun t => (t.pc, t.cyc, t.curOp)) = some (.unsupportedOpcode 0x85, 0x0201, 20, 0x85) := by decide

/-- D-FT-16. -/
theorem test_out_of_range_D_FT_16 :
    faulted (stepAt (withCapacity 0x100) (ready 0x0100 [] [] State.reset))
      (fun t => (t.pc, t.cyc, t.curOp)) = some (.outOfRange 0x0100, 0x0100, 20, 0x00) := by decide

/-- D-FT-17. -/
theorem test_out_of_range_D_FT_17 :
    faulted (stepAt (withCapacity 0x1000) (ready 0x0200 [0xAD, 0x00, 0x20] [] { State.reset with a := 0x55 }))
      (fun t => (t.pc, t.cyc, t.curOp)) = some (.outOfRange 0x2000, 0x0201, 20, 0xAD) := by decide

/-- D-CY-1. -/
theorem test_replenish_D_CY_1 :
    seen (step (ready 0x0200 [0x38] [] { State.reset with cyc := 2 })) (fun t => t.cyc) = some 0 := by decide

/-- D-CY-2. -/
theorem test_replenish_D_CY_2 :
    seen (step (ready 0x0200 [0x38] [] { State.reset with cyc := 1 })) (fun t => t.cyc) = some 19 := by decide

/-- R6, R7, R63, R76: another `INTERRUPT_PERIOD` and another `BASE_CYCLES` (SEC at 9 cycles): 3 - 9 is negative, 100 is added. -/
theorem test_parameters_R6_R7 :
    seen (stepAt { chip with interruptPeriod := 100, baseCycles := fun op => if op = 0x38 then 9 else 2 }
      (ready 0x0200 [0x38] [] { State.reset with cyc := 3 })) (fun t => t.cyc) = some 94 ∧
    (State.construct { chip with interruptPeriod := 100 }).cyc = 100 := by decide

/-! ### The host's operations: the spec's vectors S8-7 and D-FT-21 to D-FT-25 -/

/-- S8-7a: no partial load. -/
theorem test_load_S8_7a :
    faulted (hostLoad (withCapacity 1) 0 [0x38, 0x38] (State.construct (withCapacity 1))) (fun t => t.mem.read (withCapacity 1) 0) =
      some (.invalidLoad 0 2, some 0x00) := by decide

/-- S8-7b, S8-7c. -/
theorem test_bounds_S8_7 :
    faulted (hostRead (withCapacity 1) 1 (State.construct (withCapacity 1))) (fun _ => ()) = some (.outOfRange 1, ()) ∧
      faulted (hostWrite (withCapacity 1) 1 0xAA (State.construct (withCapacity 1))) (fun t => t.mem.cells) =
        some (.outOfRange 1, []) := by decide

/-- S8-7d. -/
theorem test_write_S8_7d :
    seen (hostRead (withCapacity 1) 0 (State.construct (withCapacity 1))) id = some 0x00 ∧
      seen (hostWrite (withCapacity 1) 0 0xAA (State.construct (withCapacity 1))) (fun t => t.mem.read (withCapacity 1) 0) =
        some (some 0xAA) := by decide

/-- D-FT-21, D-FT-24, D-FT-25. -/
theorem test_loadProgram_faults :
    faulted (loadProgram chip 0xFFFA [1, 2, 3, 4, 5, 6, 7, 8] 0xFFFA State.reset) (fun t => (t.pc, t.mem.cells)) =
        some (.invalidLoad 0xFFFA 8, 0, []) ∧
      faulted (loadProgram chip 0x10001 [] 0 State.reset) (fun t => t.pc) = some (.invalidLoad 0x10001 0, 0) ∧
      faulted (loadProgram chip 0xFFFFFFFF [1, 2] 0 State.reset) (fun t => t.pc) = some (.invalidLoad 0xFFFFFFFF 2, 0) := by decide

/-- D-FT-22, D-FT-23. -/
theorem test_loadProgram_completes :
    seen (loadProgram chip 0xFFFA [1, 2, 3, 4, 5, 6] 0xFFFA State.reset) (fun t => (t.pc, t.mem.read chip 0xFFFF)) =
        some (0xFFFA, some 6) ∧
      seen (loadProgram chip 0x10000 [] 0x0000 State.reset) (fun t => (t.pc, t.mem.cells)) = some (0x0000, []) := by decide

/-- A byte written back to what an unlisted address reads as leaves the list. -/
theorem test_memory_is_canonical :
    storeCell (storeCell [] 5 0x11) 5 0x00 = [] ∧ storeCell (storeCell [] 5 0x11) 3 0x22 = [(3, 0x22), (5, 0x11)] := by decide

/-! ### Witnesses: for each statement with hypotheses, a state and operands that meet them together, at the boundaries of each clause.
Whether a step or a handler completes is said through `seen`: `exists_next` gives the next state. -/

theorem exists_next {τ : Type} {o : Host.Outcome τ Fault Refusal} (h : (seen o id).isSome) : ∃ t, o = .next t := by
  cases o with
  | next t => exact ⟨t, rfl⟩
  | fault _ => cases h
  | refused _ => cases h

theorem exists_fault {τ : Type} {o : Host.Outcome τ Fault Refusal} (h : (faulted o id).isSome) : ∃ r, o = .fault r := by
  cases o with
  | next _ => cases h
  | fault r => exact ⟨r, rfl⟩
  | refused _ => cases h

theorem eq_next {τ : Type} {o : Host.Outcome τ Fault Refusal} {v : τ} (h : seen o id = some v) : o = .next v := by
  cases o with
  | next t => rw [← Option.some.inj h]; rfl
  | fault _ => cases h
  | refused _ => cases h

/-- SEC at the last address. -/
def atTop : State := ready 0xFFFF [0x38] [] State.reset

theorem witness_ResetLeavesTheSpecifiedState : 0xFFFF < 0x10000 ∧ 0 < (withCapacity 1).capacity := by decide

theorem witness_InvariantHoldsAtReset : 0 ≤ chip.interruptPeriod ∧ 0 ≤ ({ chip with interruptPeriod := 0 } : Params).interruptPeriod := by
  decide

/-- The parameters of this hardware, and others whose greatest charge is the period. -/
theorem witness_StepKeepsTheInvariant :
    (∃ s t, MachineInv chip s ∧ step s = .next t) ∧
    ∃ P : Params, (∀ i : Instr, i.executable = true → (P.baseCycles i.opcode : Int) + 2 ≤ P.interruptPeriod) ∧
      ∃ s t, MachineInv P s ∧ stepAt P s = .next t :=
  ⟨⟨atTop, (exists_next (by decide)).choose, ⟨by decide, rfl, by decide, by decide⟩, (exists_next (by decide)).choose_spec⟩,
    { chip with interruptPeriod := 3, baseCycles := fun _ => 1 }, fun _ _ => le_refl (3 : Int),
    { atTop with cyc := 0 }, (exists_next (by decide)).choose, ⟨by decide, rfl, by decide, by decide⟩,
    (exists_next (by decide)).choose_spec⟩

/-- Construction, a step, a faulting step, a load and a failed load. -/
theorem witness_ReachableStatesKeepSpAndCanonicalMemory :
    Reachable chip State.reset ∧ (∃ s t, Reachable chip s ∧ stepAt chip s = .next t) ∧
      (∃ s r, Reachable chip s ∧ stepAt chip s = .fault r) ∧
      (∃ s r, Reachable chip s ∧ loadProgram chip 0xFFFF [1, 2] 0 s = .fault r) ∧
      ∃ s t, (s.sp = 0xFF ∧ s.mem.wf chip) ∧ HostMove chip s t := by
  have load : HostMove chip State.reset { State.reset with mem := ⟨[(0, 0x38)]⟩ } := .loaded 0 [0x38] 0 rfl
  exact ⟨.constructed, ⟨_, _, .moved .constructed load, (exists_next (by decide)).choose_spec⟩,
    ⟨_, _, .constructed, (exists_fault (by decide)).choose_spec⟩,
    ⟨_, _, .constructed, (exists_fault (by decide)).choose_spec⟩, _, _, ⟨rfl, by decide⟩, load⟩

theorem witness_ReadFaultsExactlyOutOfRange : 0xFFFF < chip.capacity ∧ chip.capacity ≤ 0x10000 := by decide

theorem witness_WriteChangesOneByte :
    atTop.mem.wf chip ∧ 0xFFFF < chip.capacity ∧ chip.capacity ≤ 0x10000 := by decide

theorem witness_LoadIsAllOrNothing :
    atTop.mem.wf chip ∧ (0xFFFE ≤ chip.capacity ∧ 0xFFFE + [(1 : Byte), 2].length ≤ chip.capacity) ∧
      (0x10000 ≤ chip.capacity ∧ 0x10000 + ([] : List Byte).length ≤ chip.capacity) ∧
      chip.capacity < 0xFFFF + [(1 : Byte), 2].length ∧ chip.capacity < 0x10001 := by decide

theorem witness_ClearZeroesMemoryOnly : 0xFFFF < chip.capacity := by decide

theorem witness_LoadProgramLoadsThenSetsPc :
    (∃ t, hostLoad chip (0xFFFE#32).toNat [1, 2] State.reset = .next t) ∧
      chip.capacity < (0xFFFF#32).toNat + [(1 : Byte), 2].length :=
  ⟨exists_next (by decide), by decide⟩

theorem witness_DecodeOfEncodeGivesBackTheInstruction :
    (Instr.clc.wf = true ∧ OperandBytes.none.fits .clc = true) ∧ (Instr.bcc.wf = true ∧ (OperandBytes.one 0xFF).fits .bcc = true) ∧
      (Instr.jmp.wf = true ∧ (OperandBytes.two 0xFF 0xFF).fits .jmp = true) ∧
      ((Instr.unsupported 0xFF).wf = true ∧ OperandBytes.none.fits (.unsupported 0xFF) = true) := by decide

theorem witness_EncodeOfDecodeGivesBackTheBytes :
    decode [0x4C, 0xFF, 0x00, 0x07] = .ok ⟨.jmp, .two 0xFF 0x00, [0x07]⟩ := by decide

theorem witness_StepRunsTheDecodedInstruction : atTop.mem.read chip atTop.pc.toNat = some 0x38 := by decide

/-- An instruction without operand, with one byte, and with two whose opcode is the last byte of memory. -/
theorem witness_StepRunsTheInstructionInMemory :
    (∃ s : State, Instr.sec.wf = true ∧ OperandBytes.none.fits .sec = true ∧ s.mem.read chip s.pc.toNat = some Instr.sec.opcode ∧
      ∀ k, (h : k < OperandBytes.none.bytes.length) → s.mem.read chip ((s.pc.toNat + 1) % 0x10000 + k) = some OperandBytes.none.bytes[k]) ∧
    (∃ s : State, Instr.bcc.wf = true ∧ (OperandBytes.one 5).fits .bcc = true ∧ s.mem.read chip s.pc.toNat = some Instr.bcc.opcode ∧
      ∀ k, (h : k < (OperandBytes.one 5).bytes.length) →
        s.mem.read chip ((s.pc.toNat + 1) % 0x10000 + k) = some (OperandBytes.one 5).bytes[k]) ∧
    (∃ s : State, Instr.jmp.wf = true ∧ (OperandBytes.two 0x34 0x12).fits .jmp = true ∧
      s.mem.read chip s.pc.toNat = some Instr.jmp.opcode ∧
      ∀ k, (h : k < (OperandBytes.two 0x34 0x12).bytes.length) →
        s.mem.read chip ((s.pc.toNat + 1) % 0x10000 + k) = some (OperandBytes.two 0x34 0x12).bytes[k]) :=
  ⟨⟨atTop, by decide⟩, ⟨ready 0x200 [0x90, 5] [] State.reset, by decide⟩,
    ⟨ready 0xFFFF [0x4C] [(0, [0x34, 0x12])] State.reset, by decide⟩⟩

theorem witness_ReplenishAddsOnceWhenNegative :
    ({ State.reset with cyc := -1 } : State).cyc < 0 ∧ 0 ≤ ({ State.reset with cyc := 0 } : State).cyc := by decide

theorem witness_LengthIsAFunctionOfTheMode :
    Instr.mode .inx = some .implied ∧ (Instr.asl .accumulator).mode = some .accumulator ∧ Instr.mode .brk = none ∧
      (Instr.adc .immediate).mode = some .immediate ∧ (Instr.ldx .zeroPageY).mode = some .zeroPageY ∧
      Instr.mode .bcc = some .relative ∧ Instr.mode .jmp = some .absolute ∧ (Instr.lda .absoluteY).mode = some .absoluteY := by decide

theorem witness_BaseCyclesFollowTheClassTable :
    Instr.mode .jmp = some .absolute ∧ (Instr.inc .absoluteX).mode = some .absoluteX ∧
      (Instr.asl .accumulator).mode = some .accumulator ∧ (Instr.lda .indirectIndexed).mode = some .indirectIndexed := by decide

/-! States in which a handler runs: `PC` at the first operand byte. -/

/-- The operand bytes at 0x0201, then the data. -/
def running (operand : List Byte) (data : List (Nat × List Byte)) (s : State) : State := ready 0x0201 operand data s

theorem witness_AbsoluteIsTheLittleEndianOperand :
    (∃ s : State, s.mem.read chip s.pc.toNat = some 0x34 ∧ s.mem.read chip (s.pc.toNat + 1) = some 0x12 ∧ s.pc = 0xFFFE) ∧
      (∃ s : State, (withCapacity 0x100).capacity ≤ s.pc.toNat) ∧ ∃ s : State, chip.capacity = s.pc.toNat + 1 :=
  ⟨⟨ready 0xFFFE [0x34, 0x12] [] State.reset, by decide⟩, ⟨{ State.reset with pc := 0x100 }, by decide⟩,
    ⟨{ State.reset with pc := 0xFFFF }, by decide⟩⟩

/-- The last sum without a wrap, the first with one, and the first with one in ASL AbsoluteX. -/
theorem witness_AbsoluteXAddsXAndWraps :
    (∃ s : State, resolve chip .absolute s = .next ⟨0xFFDF, 0⟩ ∧ ¬ 0xFFFF < 0xFFDF + s.x.toNat) ∧
    (∃ s : State, resolve chip .absolute s = .next ⟨0xFFE0, 0⟩ ∧ 0xFFFF < 0xFFE0 + s.x.toNat ∧ s.curOp ≠ 0x1E) ∧
    ∃ s : State, resolve chip .absolute s = .next ⟨0xFFE0, 0⟩ ∧ 0xFFFF < 0xFFE0 + s.x.toNat ∧ s.curOp = 0x1E :=
  ⟨⟨running [0xDF, 0xFF] [] { State.reset with x := 0x20 }, eq_next (by decide), by decide⟩,
    ⟨running [0xE0, 0xFF] [] { State.reset with x := 0x20 }, eq_next (by decide), by decide, by decide⟩,
    ⟨running [0xE0, 0xFF] [] { State.reset with x := 0x20, curOp := 0x1E }, eq_next (by decide), by decide, by decide⟩⟩

theorem witness_AbsoluteYAddsYAndWraps :
    (∃ s : State, resolve chip .absolute s = .next ⟨0xFFDF, 0⟩ ∧ ¬ 0xFFFF < 0xFFDF + s.y.toNat) ∧
    ∃ s : State, resolve chip .absolute s = .next ⟨0xFFE0, 0⟩ ∧ 0xFFFF < 0xFFE0 + s.y.toNat :=
  ⟨⟨running [0xDF, 0xFF] [] { State.reset with y := 0x20 }, eq_next (by decide), by decide⟩,
    ⟨running [0xE0, 0xFF] [] { State.reset with y := 0x20 }, eq_next (by decide), by decide⟩⟩

/-- Index sums 0xFF and 0x100. -/
theorem witness_ZeroPageXAndYBothAddXModulo256 :
    (∃ s : State, s.mem.read chip s.pc.toNat = some 0xF0 ∧ (0xF0 : Byte).toNat + s.x.toNat = 0xFF) ∧
    ∃ s : State, s.mem.read chip s.pc.toNat = some 0xF0 ∧ (0xF0 : Byte).toNat + s.x.toNat = 0x100 :=
  ⟨⟨running [0xF0] [] { State.reset with x := 0x0F }, by decide⟩, ⟨running [0xF0] [] { State.reset with x := 0x10 }, by decide⟩⟩

/-- The pointer at 0xFF, its high byte at 0x100. -/
theorem witness_IndexedIndirectReadsThePointerAtOperandPlusX :
    ∃ s : State, s.mem.read chip s.pc.toNat = some 0xF0 ∧ s.mem.read chip (((0xF0 : Byte).toNat + s.x.toNat) % 256) = some 0x34 ∧
      s.mem.read chip (((0xF0 : Byte).toNat + s.x.toNat) % 256 + 1) = some 0x12 :=
  ⟨running [0xF0] [(0xFF, [0x34, 0x12])] { State.reset with x := 0x0F }, by decide⟩

theorem witness_IndirectIndexedAddsYToThePointer :
    (∃ s : State, s.mem.read chip s.pc.toNat = some 0xFF ∧ s.mem.read chip (0xFF : Byte).toNat = some 0xF0 ∧
      s.mem.read chip ((0xFF : Byte).toNat + 1) = some 0xFF ∧ ¬ 0xFFFF < 0xFF * 256 + 0xF0 + s.y.toNat) ∧
    ∃ s : State, s.mem.read chip s.pc.toNat = some 0xFF ∧ s.mem.read chip (0xFF : Byte).toNat = some 0xF0 ∧
      s.mem.read chip ((0xFF : Byte).toNat + 1) = some 0xFF ∧ 0xFFFF < 0xFF * 256 + 0xF0 + s.y.toNat :=
  ⟨⟨running [0xFF] [(0xFF, [0xF0, 0xFF])] { State.reset with y := 0x0F }, by decide⟩,
    ⟨running [0xFF] [(0xFF, [0xF0, 0xFF])] { State.reset with y := 0x10 }, by decide⟩⟩

theorem witness_ZeroPageImmediateAndRelativeAddresses :
    atTop.mem.read chip atTop.pc.toNat = some 0x38 ∧ ∃ s : State, (withCapacity 0x100).capacity ≤ s.pc.toNat :=
  ⟨by decide, { State.reset with pc := 0x100 }, by decide⟩

/-- A penalty in each of the three modes, and the two ways without one. -/
theorem witness_PenaltyOnlyOnIndexWrap :
    (∃ s, resolve chip .absoluteX s = .next ⟨0, 1⟩) ∧ (∃ s, resolve chip .absoluteY s = .next ⟨0, 1⟩) ∧
      (∃ s, resolve chip .indirectIndexed s = .next ⟨0, 1⟩) ∧ (∃ s, resolve chip .absoluteX s = .next ⟨0xFFFF, 0⟩) ∧
      ∃ s : State, s.curOp = 0x1E ∧ resolve chip .absoluteX s = .next ⟨0, 0⟩ :=
  ⟨⟨running [0xE0, 0xFF] [] { State.reset with x := 0x20 }, eq_next (by decide)⟩,
    ⟨running [0xE0, 0xFF] [] { State.reset with y := 0x20 }, eq_next (by decide)⟩,
    ⟨running [0x10] [(0x10, [0xF0, 0xFF])] { State.reset with y := 0x10 }, eq_next (by decide)⟩,
    ⟨running [0xDF, 0xFF] [] { State.reset with x := 0x20 }, eq_next (by decide)⟩,
    ⟨running [0xE0, 0xFF] [] { State.reset with x := 0x20, curOp := 0x1E }, rfl, eq_next (by decide)⟩⟩

/-- Capacity 0x1000: the last readable address, the first unreadable one, and an unreadable one with a penalty due. -/
theorem witness_OperandIsTheByteAtTheResolvedAddress :
    (∃ s : State, resolve (withCapacity 0x1000) .absolute s = .next ⟨0x0FFF, 0⟩ ∧
      s.mem.read (withCapacity 0x1000) 0x0FFF = some 0x5A) ∧
    (∃ s : State, resolve (withCapacity 0x1000) .absolute s = .next ⟨0x1000, 0⟩ ∧ (withCapacity 0x1000).capacity ≤ 0x1000) ∧
    ∃ s : State, resolve (withCapacity 0x20) .absoluteX s = .next ⟨0xFE, 1⟩ ∧ (withCapacity 0x20).capacity ≤ 0xFE :=
  ⟨⟨running [0xFF, 0x0F] [(0x0FFF, [0x5A])] State.reset, eq_next (by decide), by decide⟩,
    ⟨running [0x00, 0x10] [] State.reset, eq_next (by decide), by decide⟩,
    ⟨ready 0x00 [0xFF, 0xFF] [] { State.reset with x := 0xFF }, eq_next (by decide), by decide⟩⟩

/-! Operands: the immediate byte at 0x0201, and the byte at 0x0010 for the read-modify-write forms. -/

def immediate (v : Byte) (s : State) : State := running [v] [] s

theorem fetched_immediate (v : Byte) (s : State) (h : (immediate v s).mem.read chip 0x0201 = some v) :
    fetchOperand chip .immediate (immediate v s) = .next ⟨0x0201, v, 0⟩ := by
  have : (immediate v s).pc.toNat = 0x0201 := rfl
  simp only [fetchOperand, resolve, andThen, this, h]

/-- Binary sums 255 and 256, decimal sums 99, 100 and 355. -/
theorem witness_AdcAddsMemoryAndCarry :
    (∃ (s : State) (o : Operand), fetchOperand chip AluMode.immediate.tag s = .next o ∧
      o.value.toNat + s.a.toNat + (if s.flagC then 1 else 0) = 255 ∧ s.flagD = false) ∧
    (∃ (s : State) (o : Operand), fetchOperand chip AluMode.immediate.tag s = .next o ∧
      o.value.toNat + s.a.toNat + (if s.flagC then 1 else 0) = 256 ∧ s.flagD = false) ∧
    (∃ (s : State) (o : Operand), fetchOperand chip AluMode.immediate.tag s = .next o ∧
      o.value.toNat + s.a.toNat + (if s.flagC then 1 else 0) = 99 ∧ s.flagD = true) ∧
    (∃ (s : State) (o : Operand), fetchOperand chip AluMode.immediate.tag s = .next o ∧
      o.value.toNat + s.a.toNat + (if s.flagC then 1 else 0) = 100 ∧ s.flagD = true) ∧
    ∃ (s : State) (o : Operand), fetchOperand chip AluMode.immediate.tag s = .next o ∧
      o.value.toNat + s.a.toNat + (if s.flagC then 1 else 0) = 355 ∧ s.flagD = true :=
  ⟨⟨immediate 0x80 { State.reset with a := 0x7F }, _, fetched_immediate _ _ (by decide), by decide⟩,
    ⟨immediate 0x80 { State.reset with a := 0x7F, flagC := true }, _, fetched_immediate _ _ (by decide), by decide⟩,
    ⟨immediate 49 { State.reset with a := 50, flagD := true }, _, fetched_immediate _ _ (by decide), by decide⟩,
    ⟨immediate 50 { State.reset with a := 50, flagD := true }, _, fetched_immediate _ _ (by decide), by decide⟩,
    ⟨immediate 200 { State.reset with a := 155, flagD := true }, _, fetched_immediate _ _ (by decide), by decide⟩⟩

theorem witness_AdcDecimalAbove355ReducesModulo256 :
    (∃ (s : State) (o : Operand), fetchOperand chip AluMode.immediate.tag s = .next o ∧ s.flagD = true ∧
      o.value.toNat + s.a.toNat + (if s.flagC then 1 else 0) = 356) ∧
    ∃ (s : State) (o : Operand), fetchOperand chip AluMode.immediate.tag s = .next o ∧ s.flagD = true ∧
      355 < o.value.toNat + s.a.toNat + (if s.flagC then 1 else 0) ∧ o.value = 0xFF ∧ s.a = 0xFF ∧ s.flagC = true :=
  ⟨⟨immediate 200 { State.reset with a := 156, flagD := true }, _, fetched_immediate _ _ (by decide), by decide⟩,
    ⟨immediate 0xFF { State.reset with a := 0xFF, flagD := true, flagC := true }, _, fetched_immediate _ _ (by decide), by decide⟩⟩

theorem witness_AdcOverflowIsSignedOverflow :
    ∃ (s t : State) (o : Operand), fetchOperand chip AluMode.immediate.tag s = .next o ∧ execAt chip (.adc .immediate) s = .next t :=
  ⟨immediate 0x01 { State.reset with a := 0x7F }, _, _, fetched_immediate _ _ (by decide), (exists_next (by decide)).choose_spec⟩

/-- The mode Immediate, which AND, ORA, EOR, CMP, CPX, CPY, LDA, LDX and LDY share. -/
theorem witness_immediate_operand :
    ∃ (s : State) (o : Operand), fetchOperand chip AluMode.immediate.tag s = .next o ∧
      fetchOperand chip IndexCompareMode.immediate.tag s = .next o ∧ fetchOperand chip LdxMode.immediate.tag s = .next o ∧
      fetchOperand chip LdyMode.immediate.tag s = .next o ∧ o.value = 0xFF :=
  ⟨immediate 0xFF State.reset, _, fetched_immediate _ _ (by decide), fetched_immediate _ _ (by decide),
    fetched_immediate _ _ (by decide), fetched_immediate _ _ (by decide), rfl⟩

theorem witness_LogicCombinesAccumulatorBitwise :
    ∃ (s : State) (o : Operand), fetchOperand chip AluMode.immediate.tag s = .next o ∧ s.a &&& o.value = 0 :=
  ⟨immediate 0x0F { State.reset with a := 0xF0 }, _, fetched_immediate _ _ (by decide), by decide⟩

/-- A memory byte in mode ZeroPage, which BIT, the shifts, INC, DEC, STX and STY share, with canonical memory. -/
def zeroPage (v : Byte) (s : State) : State := running [0x10] [(0x10, [v])] s

theorem fetched_zeroPage (v : Byte) (s : State) (h0 : (zeroPage v s).mem.read chip 0x0201 = some 0x10)
    (h1 : (zeroPage v s).mem.read chip 0x10 = some v) : fetchOperand chip .zeroPage (zeroPage v s) = .next ⟨0x10, v, 0⟩ := by
  have hp : (zeroPage v s).pc.toNat = 0x0201 := rfl
  have h2 : (zeroPage v s).mem.read chip (0x10 : Byte).toNat = some v := h1
  simp only [fetchOperand, resolve, andThen, memRead, hp, h0, h2]
  rfl

theorem witness_ShiftsOfMemory :
    ∃ (s : State) (o : Operand), ShiftMode.zeroPage ≠ .accumulator ∧ fetchOperand chip ShiftMode.zeroPage.tag s = .next o ∧ s.mem.wf chip ∧
      o.value = 0x81 ∧ s.flagC = true :=
  ⟨zeroPage 0x81 { State.reset with flagC := true }, _, by decide, fetched_zeroPage _ _ (by decide) (by decide), by decide, rfl,
    rfl⟩

theorem witness_BitTestsTheOperand :
    ∃ (s : State) (o : Operand), fetchOperand chip BitMode.zeroPage.tag s = .next o ∧ o.value = 0xC0 :=
  ⟨zeroPage 0xC0 State.reset, _, fetched_zeroPage _ _ (by decide) (by decide), rfl⟩

/-- The operand one above `A`, equal to `X` and one below `Y`. -/
theorem witness_CompareSetsFlagsFromTheWrappedDifference :
    ∃ (s : State) (o : Operand), fetchOperand chip AluMode.immediate.tag s = .next o ∧
      fetchOperand chip IndexCompareMode.immediate.tag s = .next o ∧ s.a + 1 = o.value ∧ s.x = o.value ∧ s.y = o.value + 1 :=
  ⟨immediate 0x80 { State.reset with a := 0x7F, x := 0x80, y := 0x81 }, _, fetched_immediate _ _ (by decide),
    fetched_immediate _ _ (by decide), by decide⟩

theorem witness_CountsOfMemory :
    (∃ (s : State) (o : Operand), fetchOperand chip CountMode.zeroPage.tag s = .next o ∧ s.mem.wf chip ∧ o.value = 0xFF) ∧
      ∃ (s : State) (o : Operand), fetchOperand chip CountMode.zeroPage.tag s = .next o ∧ s.mem.wf chip ∧ o.value = 0x00 :=
  ⟨⟨zeroPage 0xFF State.reset, _, fetched_zeroPage _ _ (by decide) (by decide), by decide, rfl⟩,
    ⟨zeroPage 0x00 State.reset, _, fetched_zeroPage _ _ (by decide) (by decide), by decide, rfl⟩⟩

/-- Not taken; taken with offset 0x7F to raw targets 0xFFFF and 0x10000, with 0x80 and with 0x81 to the raw target -1; taken with the
offset byte out of range. -/
theorem witness_BranchesFollowTheirFlag :
    Instr.branchTest .bcs State.reset = some false ∧
    (∃ s : State, Instr.branchTest .bcc s = some true ∧ s.mem.read chip s.pc.toNat = some 0x7F ∧ s.pc.toNat + 0x7F = 0xFFFF) ∧
    (∃ s : State, Instr.branchTest .bcc s = some true ∧ s.mem.read chip s.pc.toNat = some 0x7F ∧ s.pc.toNat + 0x7F = 0x10000) ∧
    (∃ s : State, Instr.branchTest .bne s = some true ∧ s.mem.read chip s.pc.toNat = some 0x80) ∧
    (∃ s : State, Instr.branchTest .bne s = some true ∧ s.mem.read chip s.pc.toNat = some 0x81 ∧ s.pc = 0) ∧
    ∃ s : State, Instr.branchTest .bpl s = some true ∧ (withCapacity 0x100).capacity ≤ s.pc.toNat :=
  ⟨rfl, ⟨ready 0xFF80 [0x7F] [] State.reset, by decide⟩, ⟨ready 0xFF81 [0x7F] [] State.reset, by decide⟩,
    ⟨ready 0x0201 [0x80] [] State.reset, by decide⟩, ⟨ready 0 [0x81] [] State.reset, by decide⟩,
    ⟨{ State.reset with pc := 0x100 }, by decide⟩⟩

theorem witness_JmpSetsPcToTheOperand :
    ∃ s : State, s.mem.read chip s.pc.toNat = some 0xFF ∧ s.mem.read chip (s.pc.toNat + 1) = some 0xFF :=
  ⟨running [0xFF, 0xFF] [] State.reset, by decide⟩

theorem witness_OnlyBranchesAndJmpTransferControl :
    ∃ s t, Instr.transfersControl (.lda .immediate) = false ∧ s.pc = 0xFFFF ∧ execAt chip (.lda .immediate) s = .next t :=
  ⟨ready 0xFFFF [0x01] [] State.reset, _, rfl, by decide, (exists_next (by decide)).choose_spec⟩

theorem witness_LoadsCopyMemoryAndSetZeroNegative :
    ∃ (s : State) (o : Operand), fetchOperand chip AluMode.immediate.tag s = .next o ∧ fetchOperand chip LdxMode.immediate.tag s = .next o ∧
      fetchOperand chip LdyMode.immediate.tag s = .next o ∧ o.value = 0x80 :=
  ⟨immediate 0x80 State.reset, _, fetched_immediate _ _ (by decide), fetched_immediate _ _ (by decide),
    fetched_immediate _ _ (by decide), rfl⟩

theorem witness_StxAndStyCopyMemoryIntoTheRegister :
    ∃ (s : State) (o : Operand), fetchOperand chip StxMode.zeroPage.tag s = .next o ∧ fetchOperand chip StyMode.zeroPage.tag s = .next o ∧
      o.value = 0x00 :=
  ⟨zeroPage 0x00 State.reset, _, fetched_zeroPage _ _ (by decide) (by decide), fetched_zeroPage _ _ (by decide) (by decide), rfl⟩

theorem witness_BrkFaultsAsUnimplemented : State.reset.mem.read chip State.reset.pc.toNat = some 0x00 := by decide

theorem witness_UnimplementedInstructionsFault :
    (Instr.plp, (0x28 : Byte)) ∈ unimplementedInstructions ∧ (Instr.brk, (0x00 : Byte)) ∈ unimplementedInstructions ∧
      ∃ s : State, s.mem.read chip s.pc.toNat = some 0x28 :=
  ⟨by decide, by decide, ready 0xFFFF [0x28] [] State.reset, by decide⟩

theorem witness_UnsupportedBytesFault :
    (0x02 : Byte).toNat ∈ unsupportedBytes ∧ (0xFF : Byte).toNat ∈ unsupportedBytes ∧
      ∃ s : State, s.mem.read chip s.pc.toNat = some 0xFF :=
  ⟨by decide, by decide, ready 0xFFFF [0xFF] [] State.reset, by decide⟩

theorem witness_OpcodeFetchOutOfRangeChangesNothing : ∃ s : State, (withCapacity 0x100).capacity ≤ s.pc.toNat :=
  ⟨{ State.reset with pc := 0x100 }, by decide⟩

/-- A fault of each kind a step raises: fetch, dispatch, and data, the last with a penalty due. -/
theorem witness_FaultingStepChangesNoRegisterFlagOrMemory :
    (∃ s r, (withCapacity 0x100).capacity ≤ s.pc.toNat ∧ stepAt (withCapacity 0x100) s = .fault r) ∧
      (∃ s r, s.mem.read chip s.pc.toNat = some 0x60 ∧ stepAt chip s = .fault r) ∧
      (∃ s r, s.mem.read chip s.pc.toNat = some 0xEA ∧ stepAt chip s = .fault r) ∧
      ∃ s r, s.mem.read (withCapacity 0x20) s.pc.toNat = some 0x7D ∧ stepAt (withCapacity 0x20) s = .fault r :=
  ⟨⟨{ State.reset with pc := 0x100 }, _, by decide, (exists_fault (by decide)).choose_spec⟩,
    ⟨ready 0x600 [0x60] [] State.reset, _, by decide, (exists_fault (by decide)).choose_spec⟩,
    ⟨ready 0x600 [0xEA] [] State.reset, _, by decide, (exists_fault (by decide)).choose_spec⟩,
    ⟨ready 0x00 [0x7D, 0xFF, 0xFF] [] { State.reset with x := 0xFF }, _, by decide,
      (exists_fault (by decide)).choose_spec⟩⟩

theorem witness_ThreeByteInstructionAtTheTopOfMemory :
    (∃ s : State, chip.capacity = 0x10000 ∧ s.mem.read chip s.pc.toNat = some 0x4C ∧ (decodeOpcode 0x4C).length = 3 ∧ s.pc = 0xFFFE) ∧
    ∃ s : State, chip.capacity = 0x10000 ∧ s.mem.read chip s.pc.toNat = some 0xAD ∧ (decodeOpcode 0xAD).length = 3 ∧ s.pc = 0xFFFF ∧
      (decodeOpcode 0xAD).transfersControl = false :=
  ⟨⟨ready 0xFFFE [0x4C, 0x00] [] State.reset, by decide⟩, ⟨ready 0xFFFF [0xAD] [] State.reset, by decide⟩⟩

/-- A three-byte instruction whose operand bytes are the last two of memory, and a two-byte one whose operand byte is the last. -/
theorem witness_EveryExecutableInstructionCompletes :
    (∃ s : State, Instr.jmp.executable = true ∧ (Instr.jmp.length = 3 → s.pc ≠ 0xFFFF) ∧ s.pc = 0xFFFE) ∧
    (∃ s : State, Instr.bcc.executable = true ∧ (Instr.bcc.length = 3 → s.pc ≠ 0xFFFF) ∧ s.pc = 0xFFFF) ∧ 0x10000 ≤ chip.capacity :=
  ⟨⟨{ State.reset with pc := 0xFFFE }, by decide⟩, ⟨{ State.reset with pc := 0xFFFF }, by decide⟩, by decide⟩

/-- An instruction that completes and writes none of the registers, flags and bytes the statement is about. -/
theorem witness_RegistersHaveNoOtherWriters :
    ∃ s t, execAt chip .sec s = .next t ∧ Instr.writesA .sec = false ∧ Instr.writesX .sec = false ∧ Instr.writesY .sec = false :=
  ⟨State.reset, _, (exists_next (by decide)).choose_spec, rfl, rfl, rfl⟩

theorem witness_FlagsHaveNoOtherWriters :
    ∃ s t, execAt chip (.stx .zeroPage) s = .next t ∧ Instr.writesC (.stx .zeroPage) = false ∧ Instr.writesZN (.stx .zeroPage) = false ∧
      Instr.writesI (.stx .zeroPage) = false ∧ Instr.writesD (.stx .zeroPage) = false ∧ Instr.writesV (.stx .zeroPage) = false :=
  ⟨State.reset, _, (exists_next (by decide)).choose_spec, rfl, rfl, rfl, rfl, rfl⟩

theorem witness_OnlyReadModifyWriteChangesMemory :
    (∃ s t, execAt chip (.sty .zeroPage) s = .next t ∧ (Instr.sty .zeroPage).modifies = none) ∧
    ∃ s t o, execAt chip (.inc .zeroPage) s = .next t ∧ (Instr.inc .zeroPage).modifies = some .zeroPage ∧
      fetchOperand chip .zeroPage s = .next o :=
  ⟨⟨State.reset, _, (exists_next (by decide)).choose_spec, rfl⟩,
    ⟨zeroPage 0xFF State.reset, _, _, (exists_next (by decide)).choose_spec, rfl, fetched_zeroPage _ _ (by decide) (by decide)⟩⟩

/-- A budget that is replenished and one that is not, with the default `BASE_CYCLES`. -/
theorem witness_StepChargesTwoToEightCycles :
    chip.baseCycles = Config.params.baseCycles ∧ (∃ s t, s.cyc = 1 ∧ stepAt chip s = .next t) ∧
      ∃ s t, s.cyc = 20 ∧ stepAt chip s = .next t :=
  ⟨rfl, ⟨{ atTop with cyc := 1 }, _, rfl, (exists_next (by decide)).choose_spec⟩,
    ⟨atTop, _, rfl, (exists_next (by decide)).choose_spec⟩⟩

/-- Two machines of one capacity that differ in the other parameters. -/
theorem witness_CycInfluencesNothingElse :
    chip.capacity = ({ chip with interruptPeriod := 100, baseCycles := fun _ => 9 } : Params).capacity := rfl

end Sys2Proof.Tests
end

section
/-! SUPPORT. What a completed or faulted step, and a program load, do to `SP`, memory and `CYC`, said once. -/

namespace Sys2Proof.Machine

/-! ### Base cycles and classes of instructions -/

/-- R53: the default base cost of an executable instruction is 2 to 7. -/
theorem baseCycles_bounds {i : Instr} (h : i.executable = true) : 2 ≤ i.baseCycles ∧ i.baseCycles ≤ 7 := by
  cases i with
  | adc m | and m | ora m | eor m | cmp m | lda m | asl m | lsr m | rol m | ror m => cases m <;> decide
  | dec m | inc m | bit m | cpx m | cpy m | ldx m | ldy m | stx m | sty m => cases m <;> decide
  | unsupported b => cases h
  | _ => revert h; decide

theorem wf_of_executable {i : Instr} (h : i.executable = true) : i.wf = true := by
  cases i with
  | unsupported b => cases h
  | _ => rfl

theorem mode_of_transfersControl {i : Instr} (h : i.transfersControl = true) : i.mode = some .relative ∨ i = .jmp := by
  cases i with
  | jmp => exact .inr rfl
  | bcc | bcs | beq | bne | bmi | bpl | bvc | bvs => exact .inl rfl
  | _ => cases h

variable {P : Params} {i : Instr} {s t u : State} {r : Fault}

/-- R129 to R131: an instruction that is not executable faults. -/
theorem execAt_of_not_executable (P : Params) (s : State) (h : i.executable = false) : ∃ r, execAt P i s = .fault r := by
  cases i with
  | brk | jsr | rts | rti | pha | pla | php | plp | unsupported => exact ⟨_, rfl⟩
  | _ => cases h

theorem executable_of_execAt_eq_next (h : execAt P i s = .next t) : i.executable = true := by
  by_contra hi
  obtain ⟨r, hr⟩ := execAt_of_not_executable P s (Bool.not_eq_true _ ▸ hi)
  simp [hr] at h

/-! ### The cycle budget -/

/-- R75: an address costs at most one penalty cycle, a branch's offset byte none. -/
theorem fetchOperand_penalty {mode : AddressingMode} {o : Operand} (h : fetchOperand P mode s = .next o) :
    o.penalty ≤ 1 ∧ (mode = .relative → o.penalty = 0) := by
  obtain ⟨hres, -⟩ := fetchOperand_eq_next.mp h
  refine ⟨(resolve_bounds hres).2, ?_⟩
  rintro rfl
  exact (congrArg Resolved.penalty (Host.Outcome.next.inj hres)).symm

/-- The cycles that an instruction's penalty and effect cost beside its base cycles: two only for a branch. -/
theorem EffectFrame.charge {n : Nat} (frame : EffectFrame i (chargePenalty n s) u) (hj : i ≠ .jmp) (hn : n ≤ 1)
    (hb : i.mode = some .relative → n = 0) :
    ∃ extra : Nat, extra ≤ 2 ∧ (extra = 2 → i.mode = some .relative) ∧ u.cyc = s.cyc - (extra : Int) := by
  rcases frame.cyc with h | ⟨ht, h⟩
  · exact ⟨n, by omega, by omega, h⟩
  · have hrel := (mode_of_transfersControl ht).resolve_right hj
    rw [hb hrel, chargePenalty_zero] at h
    rcases h with h | h
    · exact ⟨1, by omega, by omega, h⟩
    · exact ⟨2, by omega, fun _ => hrel, h⟩

/-- R160: a completed instruction charges its base cycles and at most one cycle more, at most two more for a branch. -/
theorem execAt_charge (h : execAt P i s = .next t) :
    ∃ extra : Nat, extra ≤ 2 ∧ (extra = 2 → i.mode = some .relative) ∧
      t.cyc = s.cyc - ((P.baseCycles i.opcode : Int) + (extra : Int)) := by
  by_cases hj : i = .jmp
  · subst hj
    obtain ⟨e, -, ht⟩ := andThen_eq_next.mp h
    exact ⟨0, by omega, by omega, by simp [← Host.Outcome.next.inj ht]⟩
  suffices hu : ∃ n u, EffectFrame i (chargePenalty n s) u ∧ n ≤ 1 ∧ (i.mode = some .relative → n = 0) ∧
      t.cyc = u.cyc - (P.baseCycles i.opcode : Int) by
    obtain ⟨n, u, frame, hn, hb, hcyc⟩ := hu
    obtain ⟨extra, hle, hrel, hu⟩ := frame.charge hj hn hb
    exact ⟨extra, hle, hrel, by omega⟩
  have hs := execAt_shape P i s
  generalize execAt P i s = x at hs h
  cases hs with
  | register _ effect frame =>
    cases h
    exact ⟨0, effect s, by simpa using frame, by omega, fun _ => rfl, rfl⟩
  | reading mode _ hmode effect frame =>
    obtain ⟨o, ho, rfl⟩ := readingHandler_eq_next.mp h
    obtain ⟨hn, hb⟩ := fetchOperand_penalty ho
    exact ⟨o.penalty, _, frame _ _, hn, fun hr => hb (Option.some.inj (hmode.symm.trans hr)), rfl⟩
  | modifying mode _ hmode _ result effect frame =>
    obtain ⟨o, m, ho, -, rfl⟩ := (modifyingHandler_eq_next fun v t => (frame v t).mem).mp h
    obtain ⟨hn, hb⟩ := fetchOperand_penalty ho
    exact ⟨o.penalty, _, frame _ _, hn, fun hr => hb (Option.some.inj (hmode.symm.trans hr)), rfl⟩
  | jump hi => exact absurd hi hj
  | unimplemented => cases h
  | unsupported => cases h

/-- R160, R63: a completed step charges this once, then adds the period if the budget is negative. -/
theorem stepAt_charge (h : stepAt P s = .next t) : ∃ (op : Byte) (extra : Nat),
    s.mem.read P s.pc.toNat = some op ∧ (decodeOpcode op).executable = true ∧
    extra ≤ 2 ∧ (extra = 2 → (decodeOpcode op).mode = some .relative) ∧
    t.cyc = if s.cyc - ((P.baseCycles op : Int) + (extra : Int)) < 0
      then s.cyc - ((P.baseCycles op : Int) + (extra : Int)) + P.interruptPeriod
      else s.cyc - ((P.baseCycles op : Int) + (extra : Int)) := by
  obtain ⟨op, u, hread, hu, rfl⟩ := stepAt_eq_next.mp h
  obtain ⟨extra, hle, hrel, hcyc⟩ := execAt_charge hu
  rw [opcode_decodeOpcode] at hcyc
  exact ⟨op, extra, hread, executable_of_execAt_eq_next hu, hle, hrel, by rw [replenish_cyc, hcyc]⟩

/-! ### `SP` and memory -/

theorem execAt_sp (h : execAt P i s = .next t) : t.sp = s.sp := by
  rcases execAt_eq_next h with ⟨-, e, -, rfl⟩ | ⟨n, u, m, -, frame, rfl, -⟩
  · rfl
  · exact frame.sp

/-- R27, R32: a completed instruction keeps memory canonical. -/
theorem execAt_wf (hw : s.mem.wf P) (h : execAt P i s = .next t) : t.mem.wf P := by
  rcases execAt_eq_next h with ⟨-, e, -, rfl⟩ | ⟨n, u, m, -, -, rfl, rfl | ⟨mode, o, v, -, -, hm⟩⟩
  · exact hw
  · exact hw
  · exact Memory.wf_write hw hm

theorem stepAt_sp (h : stepAt P s = .next t) : t.sp = s.sp := by
  obtain ⟨op, u, -, hu, rfl⟩ := stepAt_eq_next.mp h
  simpa using execAt_sp hu

theorem stepAt_wf (hw : s.mem.wf P) (h : stepAt P s = .next t) : t.mem.wf P := by
  obtain ⟨op, u, -, hu, rfl⟩ := stepAt_eq_next.mp h
  rw [replenish_mem]
  exact execAt_wf (by exact hw) hu

@[simp] theorem afterDataFault_zero : afterDataFault 0 s = s := by simp [afterDataFault]

/-- R139: a fault of a handler leaves its starting state, but for a penalty cycle that may be due. -/
theorem execAt_fault_after (h : execAt P i s = .fault r) : ∃ n, r.after = afterDataFault n s := by
  rcases execAt_eq_fault h with ⟨a, n, -, -, rfl⟩ | ⟨-, rfl⟩ | ⟨b, -, rfl⟩
  · exact ⟨n, rfl⟩
  · exact ⟨0, afterDataFault_zero.symm⟩
  · exact ⟨0, afterDataFault_zero.symm⟩

theorem stepAt_fault_sp_mem (h : stepAt P s = .fault r) : r.after.sp = s.sp ∧ r.after.mem = s.mem := by
  rcases stepAt_eq_fault.mp h with ⟨-, rfl⟩ | ⟨op, -, hx⟩
  · exact ⟨rfl, rfl⟩
  · obtain ⟨n, hr⟩ := execAt_fault_after hx
    simp [hr]

/-! ### Program load and host moves -/

variable {offset : BitVec 32} {bytes : List Byte} {pc : Word16}

theorem loadProgram_eq_next : loadProgram P offset bytes pc s = .next t ↔
    ∃ m, s.mem.load P offset.toNat bytes = some m ∧ t = { s with mem := m, pc := pc } := by
  unfold loadProgram hostLoad raise
  cases s.mem.load P offset.toNat bytes <;> simp [eq_comm]

theorem loadProgram_eq_fault : loadProgram P offset bytes pc s = .fault r ↔
    s.mem.load P offset.toNat bytes = none ∧ r = .invalidLoad offset.toNat bytes.length s := by
  unfold loadProgram hostLoad raise
  cases s.mem.load P offset.toNat bytes <;> simp [eq_comm]

theorem hostMove_sp (h : HostMove P s t) : t.sp = s.sp := by
  cases h with
  | stepped h => exact stepAt_sp h
  | stepFaulted h => exact (stepAt_fault_sp_mem h).1
  | loaded _ _ _ h => obtain ⟨m, -, rfl⟩ := loadProgram_eq_next.mp h; rfl
  | loadFaulted _ _ _ h => obtain ⟨-, rfl⟩ := loadProgram_eq_fault.mp h; rfl

theorem hostMove_wf (hw : s.mem.wf P) (h : HostMove P s t) : t.mem.wf P := by
  cases h with
  | stepped h => exact stepAt_wf hw h
  | stepFaulted h => exact (stepAt_fault_sp_mem h).2 ▸ hw
  | loaded _ _ _ h => obtain ⟨m, hm, rfl⟩ := loadProgram_eq_next.mp h; exact Memory.wf_load hw hm
  | loadFaulted _ _ _ h => obtain ⟨-, rfl⟩ := loadProgram_eq_fault.mp h; exact hw

end Sys2Proof.Machine
end

section
/-! SUPPORT. `SP` and the interrupt-disable flag are read by nothing (R16, R18): any change of the two is an erasure that no step tells
apart. -/

namespace Sys2Proof.Machine

/-- A state with `SP` changed by `g` and the interrupt-disable flag by `k`. -/
def mapInert (g : Byte → Byte) (k : Bool → Bool) (t : State) : State := { t with sp := g t.sp, flagI := k t.flagI }

variable {g : Byte → Byte} {k : Bool → Bool} {s t : State}

theorem mapInert_eq_iff : mapInert g k s = mapInert g k t ↔
    ∃ p b, t = { s with sp := p, flagI := b } ∧ g s.sp = g p ∧ k s.flagI = k b := by
  constructor
  · intro h
    refine ⟨t.sp, t.flagI, ?_, congrArg State.sp h, congrArg State.flagI h⟩
    cases s; cases t
    simp_all [mapInert]
  · rintro ⟨p, b, rfl, hp, hb⟩
    simp [mapInert, hp, hb]

/-- Whatever `g` and `k` are, `mapInert g k` erases only what no update of the machine reads. -/
theorem erasesUnused_mapInert (P : Params) (g : Byte → Byte) (k : Bool → Bool) : ErasesUnused P P (mapInert g k) := by
  constructor
  case' toErasesUnread => constructor
  case capacity => rfl
  all_goals
    intros
    rename_i h
    obtain ⟨p, b, rfl, hp, hb⟩ := mapInert_eq_iff.mp h
    simp [mapInert, hp, hb, chargePenalty, afterDataFault_eq, finish]

/-- Two states that differ in nothing but `SP` and the interrupt-disable flag take the same step, but for these. -/
theorem stepAt_mapInert (P : Params) (h : mapInert g k s = mapInert g k t) :
    mapOutcome (mapInert g k) (stepAt P s) = mapOutcome (mapInert g k) (stepAt P t) := by
  rw [mapOutcome_eq_mapOn]
  refine stepAt_erased (erasesUnused_mapInert P g k) h (fun op h => ?fetched) (fun h => ?replenished)
  all_goals
    obtain ⟨p, b, rfl, hp, hb⟩ := mapInert_eq_iff.mp h
    simp [mapInert, hp, hb, replenish_eq]

/-- A change that is none to the state an outcome holds is none to the outcome. -/
theorem mapOutcome_of_fixed {f : State → State} {o : Host.Outcome State Fault Refusal} (hn : ∀ t, o = .next t → f t = t)
    (hr : ∀ r, o = .fault r → f r.after = r.after) : mapOutcome f o = o := by
  cases o with
  | next t => rw [mapOutcome, hn t rfl]
  | fault r =>
    have h := hr r rfl
    cases r <;> simp_all [mapOutcome, Fault.mapAfter, Fault.after]
  | refused r => rfl

end Sys2Proof.Machine
end

section
/-! PROOFS. The statements of 10_state.md: reset, the invariant, reachable states, the writer tables and what influences nothing. -/

namespace Sys2Proof

open Sys2Proof.Machine

/-- Settles O3: `SP` and memory by the frame of a step, `CYC` because one charge never exceeds the period. -/
theorem stepKeepsTheInvariant : Obligations.StepKeepsTheInvariant := by
  have general : ∀ P : Params, (∀ i : Instr, i.executable = true → (P.baseCycles i.opcode : Int) + 2 ≤ P.interruptPeriod) →
      ∀ s t, MachineInv P s → stepAt P s = .next t → MachineInv P t := by
    rintro P hP s t ⟨hw, hsp, hnonneg, hle⟩ h
    obtain ⟨op, extra, -, hexec, hextra, -, hcyc⟩ := stepAt_charge h
    have hfits := hP _ hexec
    rw [opcode_decodeOpcode] at hfits
    have hbounds : 0 ≤ t.cyc ∧ t.cyc ≤ P.interruptPeriod := by split at hcyc <;> omega
    exact ⟨stepAt_wf hw h, (stepAt_sp h).trans hsp, hbounds.1, hbounds.2⟩
  refine ⟨fun s t hinv h => general Config.params (fun i hi => ?_) s t hinv (step_eq_stepAt s ▸ h), general⟩
  have := (baseCycles_bounds hi).2
  rw [params_baseCycles (wf_of_executable hi), params_interruptPeriod]
  omega

/-- Settles O4, by induction over the host's moves. -/
theorem reachableStatesKeepSpAndCanonicalMemory : Obligations.ReachableStatesKeepSpAndCanonicalMemory := by
  intro P
  have base : (State.construct P).sp = 0xFF ∧ (State.construct P).mem.wf P := ⟨rfl, Memory.wf_construct P⟩
  have keep : ∀ s t, s.sp = 0xFF ∧ s.mem.wf P → HostMove P s t → t.sp = 0xFF ∧ t.mem.wf P :=
    fun s t ⟨hsp, hw⟩ h => ⟨(hostMove_sp h).trans hsp, hostMove_wf hw h⟩
  refine ⟨base, keep, fun s hs => ?_⟩
  induction hs with
  | constructed => exact base
  | moved _ hmove ih => exact keep _ _ ih hmove

/-- Settles O53, by the frame of the instruction's effect. -/
theorem registersHaveNoOtherWriters : Obligations.RegistersHaveNoOtherWriters := by
  intro P i s t h
  rcases execAt_eq_next h with ⟨-, e, -, rfl⟩ | ⟨n, u, m, -, frame, rfl, -⟩
  · simp
  · exact ⟨frame.a, frame.x, frame.y, frame.sp, frame.curOp⟩

/-- Settles O54, by the frame of the instruction's effect. -/
theorem flagsHaveNoOtherWriters : Obligations.FlagsHaveNoOtherWriters := by
  intro P i s t h
  rcases execAt_eq_next h with ⟨-, e, -, rfl⟩ | ⟨n, u, m, -, frame, rfl, -⟩
  · simp
  · exact ⟨frame.flagC, fun hw => ⟨frame.flagZ hw, frame.flagN hw⟩, frame.flagI, frame.flagD, frame.flagV⟩

/-- Settles O57: the two steps agree but for `SP`, and the one from `SP = v` leaves `SP = v`. -/
theorem spIsNeitherReadNorWritten : Obligations.SpIsNeitherReadNorWritten := by
  intro P s v
  have agree := stepAt_mapInert (g := fun _ => v) (k := id) (s := { s with sp := v }) (t := s) P rfl
  have fixed : mapOutcome (mapInert (fun _ => v) id) (stepAt P { s with sp := v }) = stepAt P { s with sp := v } :=
    mapOutcome_of_fixed (fun t h => by rw [mapInert, ← show t.sp = v from stepAt_sp h]; rfl)
      fun r h => by rw [mapInert, ← show r.after.sp = v from (stepAt_fault_sp_mem h).1]; rfl
  exact fixed.symm.trans agree

/-- Settles O59: erasing the flag is an erasure that no step tells apart. -/
theorem interruptDisableInfluencesNothingElse : Obligations.InterruptDisableInfluencesNothingElse :=
  fun P s b => stepAt_mapInert (g := id) (k := fun _ => false) (s := { s with flagI := b }) (t := s) P rfl

/-- Settles O1: every field is as `State.construct` gives it, and nothing is listed in memory. -/
theorem resetLeavesTheSpecifiedState : Obligations.ResetLeavesTheSpecifiedState := by
  have reads : ∀ (P : Params) addr, addr < P.capacity → (State.construct P).mem.read P addr = some 0 :=
    fun P addr h => Memory.read_of_lt h
  exact ⟨⟨rfl, rfl, rfl, rfl, rfl, rfl, rfl, rfl, rfl, rfl, rfl, rfl, rfl, reads Config.params⟩, fun P => ⟨rfl, reads P⟩⟩

/-- Settles O2: memory is empty and `CYC` is the period. -/
theorem invariantHoldsAtReset : Obligations.InvariantHoldsAtReset := by
  have general : ∀ P : Params, 0 ≤ P.interruptPeriod → MachineInv P (State.construct P) :=
    fun P h => ⟨Memory.wf_construct P, rfl, h, le_rfl⟩
  exact ⟨general Config.params (by simp), general⟩

/-- Settles O60, by the equations of `exec` and `step`. -/
theorem execAndStepAreTheParametricMachineOfThisHardware :
    Obligations.ExecAndStepAreTheParametricMachineOfThisHardware :=
  ⟨exec_eq_execAt, step_eq_stepAt, rfl, params_capacity, params_interruptPeriod⟩

end Sys2Proof
end

section
/-! SUPPORT. What the host's load and a read after a load give, what a completed instruction does to memory, when an instruction
completes, and where a step finds the instruction it runs and its operand bytes. -/

namespace Sys2Proof.Machine

variable {P : Params} {i : Instr} {s t : State} {r : Fault}

/-! ### Load -/

theorem hostLoad_eq_next {offset : Nat} {bytes : List Byte} :
    hostLoad P offset bytes s = .next t ↔ ∃ m, s.mem.load P offset bytes = some m ∧ t = { s with mem := m } := by
  unfold hostLoad raise
  cases s.mem.load P offset bytes <;> simp [eq_comm]

theorem hostLoad_eq_fault {offset : Nat} {bytes : List Byte} :
    hostLoad P offset bytes s = .fault r ↔ P.capacity < offset + bytes.length ∧ r = .invalidLoad offset bytes.length s := by
  rw [← Memory.load_eq_none (m := s.mem)]
  unfold hostLoad raise
  cases s.mem.load P offset bytes <;> simp [eq_comm]

theorem Memory.read_load_inside {m m' : Memory} {offset : Nat} {bytes : List Byte} (hw : m.wf P)
    (h : m.load P offset bytes = some m') (k : Nat) (hk : k < bytes.length) : m'.read P (offset + k) = some bytes[k] := by
  obtain ⟨hfit, rfl⟩ := Memory.load_eq_some.mp h
  exact Memory.read_eq_some.mpr ⟨by omega, lookupCell_storeCells_inside bytes hw.1 k hk⟩

theorem Memory.read_load_outside {m m' : Memory} {offset a : Nat} {bytes : List Byte} (h : m.load P offset bytes = some m')
    (ha : a < offset ∨ offset + bytes.length ≤ a) : m'.read P a = m.read P a := by
  obtain ⟨-, rfl⟩ := Memory.load_eq_some.mp h
  have hlookup : lookupCell (storeCells m.cells offset bytes) a = lookupCell m.cells a :=
    ha.elim (lookupCell_storeCells_below bytes) (lookupCell_storeCells_above bytes)
  simp only [Memory.read, Memory.get, hlookup]

/-! ### Instructions -/

/-- R39, R77: a completed instruction leaves memory as it was, or is a read-modify-write form and wrote one byte, where its operand
was read. -/
theorem execAt_mem (h : execAt P i s = .next t) :
    t.mem = s.mem ∨ ∃ mode o v, i.modifies = some mode ∧ fetchOperand P mode s = .next o ∧ s.mem.write P o.addr v = some t.mem := by
  rcases execAt_eq_next h with ⟨-, e, -, rfl⟩ | ⟨n, u, m, -, -, rfl, hm⟩
  · exact .inl rfl
  · exact hm

theorem operandCount_of_mode {mode : AddressingMode} (h : i.mode = some mode) : i.operandCount = mode.operandCount := by
  simp [Instr.operandCount, h]

/-- R36: with all 64 KiB backed, an executable instruction completes unless its high operand byte lies at 0x10000. -/
theorem execAt_completes (hc : 0x10000 ≤ P.capacity) (hi : i.executable = true) (hpc : i.length = 3 → s.pc ≠ 0xFFFF) :
    ∃ t, execAt P i s = .next t := by
  have hfetch : ∀ mode, i.mode = some mode → mode.operandCount = 2 → s.pc ≠ 0xFFFF := fun mode hmode h2 =>
    hpc (by rw [Instr.length, operandCount_of_mode hmode, h2])
  have hs := execAt_shape P i s
  generalize execAt P i s = x at hs
  cases hs with
  | register _ effect _ => exact ⟨_, rfl⟩
  | reading mode hm hmode effect _ =>
    obtain ⟨o, ho⟩ := fetchOperand_completes hm hc (hfetch mode hmode)
    exact ⟨_, readingHandler_of_fetch ho⟩
  | modifying mode hm hmode _ result effect frame =>
    obtain ⟨o, ho⟩ := fetchOperand_completes hm hc (hfetch mode hmode)
    obtain ⟨m, -, h⟩ := modifyingHandler_of_fetch (i := i) (result := result) (fun v t => (frame v t).mem) ho
    exact ⟨_, h⟩
  | jump hj =>
    obtain ⟨e, he⟩ := resolve_completes (mode := .absolute) (by simp [HasAddress]) hc (hfetch _ (by rw [hj]; rfl))
    exact ⟨_, by rw [execJmp, he, andThen_next]⟩
  | unimplemented hi' => simp [hi'] at hi
  | unsupported b hb => simp [hb, Instr.executable] at hi

/-! ### The step -/

/-- R60: a step whose opcode byte can be read is the handler of that byte's instruction, then the replenishment. -/
theorem stepAt_of_read {op : Byte} (h : s.mem.read P s.pc.toNat = some op) :
    stepAt P s = andThen (execAt P (decodeOpcode op) { s with curOp := op, pc := s.pc + 1 }) fun u => .next (replenish P u) := by
  rw [stepAt, fetchOpcode_eq_next.mpr ⟨h, rfl⟩, andThen_next]

theorem resolve_zeroPage_of_read {b : Byte} (h : s.mem.read P s.pc.toNat = some b) :
    resolve P .zeroPage s = .next ⟨b.toNat, 0⟩ := by
  rw [resolve, memRead_eq_next.mpr h, andThen_next]

theorem resolve_absolute_of_read {lo hi : Byte} (hlo : s.mem.read P s.pc.toNat = some lo)
    (hhi : s.mem.read P (s.pc.toNat + 1) = some hi) : resolve P .absolute s = .next ⟨littleEndian lo hi, 0⟩ := by
  rw [resolve, readPair_eq_next.mpr ⟨lo, hi, hlo, hhi, rfl⟩, andThen_next]

theorem toNat_pc_succ (pc : Word16) : (pc + 1).toNat = (pc.toNat + 1) % 0x10000 := by
  simp [BitVec.toNat_add]

end Sys2Proof.Machine
end

section
/-! PROOFS. The statements of 20_memory.md: the memory controller, the instruction in memory, and who changes memory. -/

namespace Sys2Proof

open Sys2Proof.Machine

/-- Settles O6, by the laws of a read after a write. -/
theorem writeChangesOneByte : Obligations.WriteChangesOneByte := by
  intro P s addr v hw
  refine ⟨fun hlt => ?_, fun hge => memWrite_eq_fault.mpr ⟨hge, rfl⟩⟩
  have hwrite := Memory.write_of_lt (m := s.mem) v hlt
  exact ⟨_, memWrite_eq_next.mpr ⟨_, hwrite, rfl⟩, rfl, Memory.wf_write hw hwrite,
    memRead_eq_next.mpr (Memory.read_write_same hw hwrite), fun other hne => Memory.read_write_other hwrite hne⟩

/-- Settles O7, by the laws of a read after a load. -/
theorem loadIsAllOrNothing : Obligations.LoadIsAllOrNothing := by
  intro P s offset bytes hw
  refine ⟨fun ⟨_, hfit⟩ => ?_, fun hover => hostLoad_eq_fault.mpr ⟨by omega, rfl⟩⟩
  have hload := (Memory.load_eq_some (m := s.mem)).mpr ⟨hfit, rfl⟩
  exact ⟨_, hostLoad_eq_next.mpr ⟨_, hload, rfl⟩, rfl, Memory.wf_load hw hload, Memory.read_load_inside hw hload,
    fun other hout => Memory.read_load_outside hload hout⟩

/-- Settles O15: the opcode byte of a well-formed instruction decodes to it, and `PC` incremented is where its operand bytes begin. -/
theorem stepRunsTheInstructionInMemory : Obligations.StepRunsTheInstructionInMemory := by
  intro P s i o hwf _ hop hbytes t
  have hoperand : ∀ k, (h : k < o.bytes.length) → t.mem.read P (t.pc.toNat + k) = some o.bytes[k] := by
    simpa only [t, toNat_pc_succ] using hbytes
  refine ⟨?_, ?_, ?_⟩
  · rw [stepAt_of_read hop, decodeOpcode_opcode hwf]
  · rintro b rfl
    exact resolve_zeroPage_of_read (hoperand 0 (by simp [OperandBytes.bytes]))
  · rintro lo hi rfl
    exact resolve_absolute_of_read (hoperand 0 (by simp [OperandBytes.bytes])) (hoperand 1 (by simp [OperandBytes.bytes]))

/-- Settles O52, by the shape of the instruction's handler. -/
theorem everyExecutableInstructionCompletes : Obligations.EveryExecutableInstructionCompletes := by
  intro i s hi hpc
  refine ⟨?_, fun P hc => execAt_completes hc hi hpc⟩
  rw [exec_eq_execAt]
  exact execAt_completes params_capacity.ge hi hpc

/-- Settles O55: the one write a completed instruction can make is a read-modify-write form's, at its operand. -/
theorem onlyReadModifyWriteChangesMemory : Obligations.OnlyReadModifyWriteChangesMemory := by
  intro P i s t h
  rcases execAt_mem h with hmem | ⟨mode, o, v, hmod, hfetch, hwrite⟩
  · exact ⟨fun _ => hmem, fun _ _ _ _ _ _ => by rw [hmem]⟩
  · refine ⟨fun hnone => by simp [hmod] at hnone, fun mode' o' hmod' hfetch' addr hne => ?_⟩
    obtain rfl : mode = mode' := Option.some.inj (hmod.symm.trans hmod')
    obtain rfl : o = o' := Host.Outcome.next.inj (hfetch.symm.trans hfetch')
    exact Memory.read_write_other hwrite hne

/-- Settles O5, by the two answers of a memory read. -/
theorem readFaultsExactlyOutOfRange : Obligations.ReadFaultsExactlyOutOfRange :=
  fun _ _ _ => ⟨fun hlt => memRead_eq_next.mpr (Memory.read_of_lt hlt), fun hge => memRead_eq_fault.mpr ⟨hge, rfl⟩⟩

/-- Settles O8: a cleared memory lists no byte. -/
theorem clearZeroesMemoryOnly : Obligations.ClearZeroesMemoryOnly :=
  fun _ _ => ⟨rfl, fun _ hlt => Memory.read_of_lt hlt⟩

end Sys2Proof
end

section
/-! SUPPORT. What decodes to an unsupported instruction, what an instruction's addressing mode says of it, and that a step is not
refused. -/

namespace Sys2Proof

/-! ### The opcode byte -/

/-- R55, R56: an opcode byte is read as the unsupported instruction of itself just when R55 lists it. -/
theorem decodeOpcode_eq_unsupported_iff {b : Byte} : decodeOpcode b = .unsupported b ↔ b.toNat ∈ unsupportedBytes := by
  rw [← List.contains_iff_mem]
  refine ⟨fun h => ?_, decodeOpcode_unsupported⟩
  have hwf := decodeOpcode_wf b
  rwa [h] at hwf

/-! ### The addressing mode -/

theorem wf_of_mode {i : Instr} {mode : AddressingMode} (h : i.mode = some mode) : i.wf = true := by
  cases i with
  | unsupported b => cases h
  | _ => rfl

/-- R74: no instruction uses mode Indirect. -/
theorem mode_ne_indirect (i : Instr) : i.mode ≠ some .indirect := by
  cases i with
  | adc m | and m | ora m | eor m | cmp m | lda m | asl m | lsr m | rol m | ror m => cases m <;> decide
  | dec m | inc m | bit m | cpx m | cpy m | ldx m | ldy m | stx m | sty m => cases m <;> decide
  | unsupported b => nofun
  | _ => decide

/-- R51: the opcode byte and the operand bytes of the mode. -/
theorem length_of_mode {i : Instr} {mode : AddressingMode} (h : i.mode = some mode) : i.length = mode.operandCount + 1 := by
  rw [Instr.length, Machine.operandCount_of_mode h]

/-- R57: an instruction that only faults is its opcode byte. -/
theorem length_of_mode_eq_none {i : Instr} (h : i.mode = none) : i.length = 1 := by
  simp [Instr.length, Instr.operandCount, h]

end Sys2Proof

namespace Sys2Proof.Machine

variable {P : Params} {s : State} {r : Refusal}

theorem fetchOpcode_ne_refused : fetchOpcode P s ≠ .refused r := by
  simp [fetchOpcode, andThen_eq_refused, memRead_ne_refused]

/-- R61: a step completes or faults, because the fetch and the handlers do. -/
theorem stepAt_ne_refused : stepAt P s ≠ .refused r := by
  simp [stepAt, andThen_eq_refused, fetchOpcode_ne_refused, execAt_ne_refused]

end Sys2Proof.Machine
end

section
/-! PROOFS. The statements of 30_encoding.md: the round trips of decoder and encoder, and what each opcode byte stands for. -/

namespace Sys2Proof

open Sys2Proof.Machine

/-- Settles O11: the opcode byte decodes to the instruction, which says how many operand bytes follow. -/
theorem decodeOfEncodeGivesBackTheInstruction : Obligations.DecodeOfEncodeGivesBackTheInstruction := by
  intro i o rest hwf hfits
  have hop : decodeOpcode i.opcode = i := decodeOpcode_opcode hwf
  have hlen : o.bytes.length = (decodeOpcode i.opcode).operandCount := by rw [hop]; exact beq_iff_eq.mp hfits
  rw [encode, decode_cons _ _ _ hlen, hop]

/-- Settles O12: what decodes is its opcode byte, the operand bytes and the rest, and the encoder has the same opcode byte. -/
theorem encodeOfDecodeGivesBackTheBytes : Obligations.EncodeOfDecodeGivesBackTheBytes := by
  intro bytes d h
  obtain ⟨op, hbytes, hinstr, hfits⟩ := decode_eq_ok h
  refine ⟨hinstr ▸ decodeOpcode_wf op, hfits, ?_⟩
  rw [encode, hinstr, opcode_decodeOpcode, hbytes]

/-- Settles O50: neither the fetch nor a handler is refused. -/
theorem stepNeverRefuses : Obligations.StepNeverRefuses :=
  fun _ s _ => ⟨stepAt_ne_refused, step_eq_stepAt s ▸ stepAt_ne_refused⟩

/-- Settles O10, by decoding the fifteen words. -/
theorem opcodeWordsOfEveryFamilyDecode : Obligations.OpcodeWordsOfEveryFamilyDecode := by
  unfold Obligations.OpcodeWordsOfEveryFamilyDecode
  decide

/-- Settles O13: what decodes is well formed, and a well-formed unsupported byte is a listed one. -/
theorem unsupportedBytesAreExactlyTheListed : Obligations.UnsupportedBytesAreExactlyTheListed :=
  fun _ => ⟨decodeOpcode_eq_unsupported_iff, rfl⟩

/-- Settles O18, by the operand count of each mode. -/
theorem lengthIsAFunctionOfTheMode : Obligations.LengthIsAFunctionOfTheMode := by
  refine ⟨?_, ?_, ?_, mode_ne_indirect⟩
  · rintro i (h | h | h)
    · exact length_of_mode h
    · exact length_of_mode h
    · exact length_of_mode_eq_none h
  · rintro i (h | h | h | h | h | h | h) <;> exact length_of_mode h
  · rintro i (h | h | h) <;> exact length_of_mode h

/-- Settles O19: the opcode byte's figure is the instruction's, which is compared with the table form by form. -/
theorem baseCyclesFollowTheClassTable : Obligations.BaseCyclesFollowTheClassTable := by
  intro i mode h
  rw [params_baseCycles (wf_of_mode h)]
  cases i with
  | adc m | and m | ora m | eor m | cmp m | lda m | bit m | cpx m | cpy m | ldx m | ldy m | stx m | sty m =>
    cases h; cases m <;> rfl
  | asl m | lsr m | rol m | ror m | dec m | inc m => cases h; cases m <;> rfl
  | brk | jsr | rts | rti | pha | pla | php | plp | unsupported => cases h
  | _ => cases h; rfl

end Sys2Proof
end

section
/-! SUPPORT. What the resolver answers in each mode, in terms of mode Absolute and of the bytes read, when it charges a penalty
cycle, and what a faulting data read leaves. -/

namespace Sys2Proof.Machine

variable {P : Params} {s : State}

/-! ### An index sum -/

/-- R66, R67, R72: the two answers of an index sum. -/
theorem next_indexed (base index n : Nat) : (.next (indexed base index n) : Host.Outcome Resolved Fault Refusal) =
    if 0xFFFF < base + index then .next ⟨base + index - 0x10000, n⟩ else .next ⟨base + index, 0⟩ :=
  apply_ite _ _ _ _

theorem indexed_penalty_eq_one_iff {base index n : Nat} :
    (indexed base index n).penalty = 1 ↔ 0xFFFF < base + index ∧ n = 1 := by
  unfold indexed
  split <;> simp [*]

/-! ### Reads out of range -/

theorem memRead_of_le {a : Nat} (h : P.capacity ≤ a) : memRead P a s = .fault (.outOfRange a s) :=
  memRead_eq_fault.mpr ⟨h, rfl⟩

theorem readPair_of_first_unreadable {p : Nat} (h : P.capacity ≤ p) : readPair P p s = .fault (.outOfRange p s) := by
  rw [readPair, memRead_of_le h, andThen_fault]

/-- D10: the second address is not wrapped, so it can be the capacity itself. -/
theorem readPair_of_second_unreadable {p : Nat} (h : P.capacity = p + 1) :
    readPair P p s = .fault (.outOfRange (p + 1) s) := by
  have hlo : memRead P p s = .next (s.mem.get p) := memRead_eq_next.mpr (Memory.read_of_lt (by omega))
  rw [readPair, hlo, andThen_next, memRead_of_le h.le, andThen_fault]

/-! ### The absolute modes -/

theorem resolve_absolute_eq_fault {r : Fault} : resolve P .absolute s = .fault r ↔ readPair P s.pc.toNat s = .fault r := by
  simp [resolve, andThen_eq_fault]

theorem resolve_absolute_eq_next {base : Nat} :
    resolve P .absolute s = .next ⟨base, 0⟩ ↔ readPair P s.pc.toNat s = .next base := by
  simp [resolve, andThen_eq_next]

/-- R66: AbsoluteX is Absolute plus `X`. -/
theorem resolve_absoluteX_eq_next {e : Resolved} : resolve P .absoluteX s = .next e ↔
    ∃ base, resolve P .absolute s = .next ⟨base, 0⟩ ∧
      e = indexed base s.x.toNat (if s.curOp = penaltyExemptOpcode then 0 else 1) := by
  simp only [resolve_absolute_eq_next]
  simp only [resolve, andThen_eq_next, Host.Outcome.next.injEq, eq_comm (a := e)]

/-- R67: AbsoluteY is Absolute plus `Y`. -/
theorem resolve_absoluteY_eq_next {e : Resolved} : resolve P .absoluteY s = .next e ↔
    ∃ base, resolve P .absolute s = .next ⟨base, 0⟩ ∧ e = indexed base s.y.toNat 1 := by
  simp only [resolve_absolute_eq_next]
  simp only [resolve, andThen_eq_next, Host.Outcome.next.injEq, eq_comm (a := e)]

/-! ### The zero-page modes -/

theorem resolve_zeroPageX_of_read {b : Byte} (h : s.mem.read P s.pc.toNat = some b) :
    resolve P .zeroPageX s = .next ⟨(b.toNat + s.x.toNat) % 256, 0⟩ := by
  rw [resolve, memRead_eq_next.mpr h, andThen_next]

/-- R70: the two zero-page indexed modes are one. -/
theorem resolve_zeroPageY : resolve P .zeroPageY s = resolve P .zeroPageX s := rfl

/-- R72: IndirectIndexed is the pointer at the operand byte plus `Y`. -/
theorem resolve_indirectIndexed_eq_next {e : Resolved} : resolve P .indirectIndexed s = .next e ↔
    ∃ b lo hi, s.mem.read P s.pc.toNat = some b ∧ s.mem.read P b.toNat = some lo ∧ s.mem.read P (b.toNat + 1) = some hi ∧
      e = indexed (littleEndian lo hi) s.y.toNat 1 := by
  simp only [resolve, andThen_eq_next, memRead_eq_next, readPair_eq_next, Host.Outcome.next.injEq]
  constructor
  · rintro ⟨b, hb, _, ⟨lo, hi, hlo, hhi, rfl⟩, rfl⟩; exact ⟨b, lo, hi, hb, hlo, hhi, rfl⟩
  · rintro ⟨b, lo, hi, hb, hlo, hhi, rfl⟩; exact ⟨b, hb, _, ⟨lo, hi, hlo, hhi, rfl⟩, rfl⟩

/-! ### The penalty cycle -/

/-- R75 (a) to (c): only three modes add an index to a 16-bit base; no other charges a cycle. -/
theorem resolve_penalty_of_unindexed {mode : AddressingMode} {e : Resolved} (h : resolve P mode s = .next e)
    (hX : mode ≠ .absoluteX) (hY : mode ≠ .absoluteY) (hI : mode ≠ .indirectIndexed) : e.penalty = 0 := by
  cases mode <;> simp only [resolve, andThen_eq_next, Host.Outcome.next.injEq, reduceCtorEq] at h
  case absoluteX => exact absurd rfl hX
  case absoluteY => exact absurd rfl hY
  case indirectIndexed => exact absurd rfl hI
  case immediate | relative => exact h ▸ rfl
  case absolute | zeroPage | zeroPageX | zeroPageY => obtain ⟨_, -, rfl⟩ := h; rfl
  case indexedIndirect => obtain ⟨_, -, _, -, rfl⟩ := h; rfl

theorem resolve_absoluteX_penalty {e : Resolved} (h : resolve P .absoluteX s = .next e) : e.penalty = 1 ↔
    s.curOp ≠ 0x1E ∧ ∃ base, resolve P .absolute s = .next ⟨base, 0⟩ ∧ 0xFFFF < base + s.x.toNat := by
  obtain ⟨base, hbase, rfl⟩ := resolve_absoluteX_eq_next.mp h
  rw [indexed_penalty_eq_one_iff, ite_eq_right_iff]
  simp [hbase, penaltyExemptOpcode, and_comm]

theorem resolve_absoluteY_penalty {e : Resolved} (h : resolve P .absoluteY s = .next e) : e.penalty = 1 ↔
    ∃ base, resolve P .absolute s = .next ⟨base, 0⟩ ∧ 0xFFFF < base + s.y.toNat := by
  obtain ⟨base, hbase, rfl⟩ := resolve_absoluteY_eq_next.mp h
  simp [indexed_penalty_eq_one_iff, hbase]

theorem resolve_indirectIndexed_penalty {e : Resolved} (h : resolve P .indirectIndexed s = .next e) : e.penalty = 1 ↔
    ∃ b lo hi, s.mem.read P s.pc.toNat = some b ∧ s.mem.read P b.toNat = some lo ∧ s.mem.read P (b.toNat + 1) = some hi ∧
      0xFFFF < hi.toNat * 256 + lo.toNat + s.y.toNat := by
  obtain ⟨b, lo, hi, hb, hlo, hhi, rfl⟩ := resolve_indirectIndexed_eq_next.mp h
  simp [indexed_penalty_eq_one_iff, hb, hlo, hhi, littleEndian]

/-! ### A data read that faults -/

theorem afterDataFault_frame (n : Nat) (s : State) : afterDataFault n s =
    { s with cyc := (afterDataFault n s).cyc, openCount := (afterDataFault n s).openCount } := by
  rw [afterDataFault_eq]

theorem afterDataFault_cyc_of_le_one {n : Nat} (hn : n ≤ 1) (s : State) :
    (afterDataFault n s).cyc = s.cyc ∨ (afterDataFault n s).cyc = s.cyc - 1 := by
  have hcyc := afterDataFault_cyc s n
  omega

/-- R77, R139: the fault reports the resolved address. -/
theorem fetchOperand_of_unreadable {mode : AddressingMode} {e : Resolved} (h : resolve P mode s = .next e)
    (ha : P.capacity ≤ e.addr) : fetchOperand P mode s = .fault (.outOfRange e.addr (afterDataFault e.penalty s)) := by
  rw [fetchOperand, h, andThen_next, Memory.read_eq_none.mpr ha, raise]

/-! ### The step -/

theorem ofNat_toNat_pc_succ (pc : Word16) : BitVec.ofNat 16 ((pc.toNat + 1) % 0x10000) = pc + 1 :=
  BitVec.eq_of_toNat_eq (by simp)

/-- A handler faults as unsupported with the byte it was decoded from. -/
theorem eq_of_decodeOpcode_eq_unsupported {op b : Byte} (h : decodeOpcode op = .unsupported b) : op = b := by
  rw [← opcode_decodeOpcode op, h]; rfl

end Sys2Proof.Machine
end

section
/-! PROOFS. The statements of 40_execution_cycle.md: the phases of a step, the address resolver, the operand, and what a fault
leaves. -/

namespace Sys2Proof

open Sys2Proof.Machine

/-- Settles O20, by the two reads of the operand bytes. -/
theorem absoluteIsTheLittleEndianOperand : Obligations.AbsoluteIsTheLittleEndianOperand :=
  fun _ _ => ⟨fun _ _ hlo hhi => resolve_absolute_of_read hlo hhi,
    fun h => resolve_absolute_eq_fault.mpr (readPair_of_first_unreadable h),
    fun h => resolve_absolute_eq_fault.mpr (readPair_of_second_unreadable h)⟩

/-- Settles O21: AbsoluteX is an index sum on Absolute. -/
theorem absoluteXAddsXAndWraps : Obligations.AbsoluteXAddsXAndWraps :=
  fun _ _ base h => (resolve_absoluteX_eq_next.mpr ⟨base, h, rfl⟩).trans (next_indexed _ _ _)

/-- Settles O22: AbsoluteY is an index sum on Absolute. -/
theorem absoluteYAddsYAndWraps : Obligations.AbsoluteYAddsYAndWraps :=
  fun _ _ base h => (resolve_absoluteY_eq_next.mpr ⟨base, h, rfl⟩).trans (next_indexed _ _ _)

/-- Settles O25: IndirectIndexed is an index sum on the pointer. -/
theorem indirectIndexedAddsYToThePointer : Obligations.IndirectIndexedAddsYToThePointer :=
  fun _ _ b lo hi hb hlo hhi =>
    (resolve_indirectIndexed_eq_next.mpr ⟨b, lo, hi, hb, hlo, hhi, rfl⟩).trans (next_indexed _ _ _)

/-- Settles O27, by the penalty of each of the three indexed modes and of all others. -/
theorem penaltyOnlyOnIndexWrap : Obligations.PenaltyOnlyOnIndexWrap := by
  intro P mode s e h
  obtain ⟨haddr, hpenalty⟩ := resolve_bounds h
  refine ⟨by omega, hpenalty, ?_⟩
  cases mode with
  | absoluteX => simpa using resolve_absoluteX_penalty h
  | absoluteY => simpa using resolve_absoluteY_penalty h
  | indirectIndexed => simpa using resolve_indirectIndexed_penalty h
  | _ => simp [resolve_penalty_of_unindexed h]

/-- Settles O28, by the two answers of the data read. -/
theorem operandIsTheByteAtTheResolvedAddress : Obligations.OperandIsTheByteAtTheResolvedAddress :=
  fun _ _ s e h => ⟨fun _ hv => fetchOperand_eq_next.mpr ⟨h, hv⟩, fun ha =>
    ⟨_, fetchOperand_of_unreadable h ha, afterDataFault_frame e.penalty s, afterDataFault_cyc s e.penalty⟩⟩

/-- Settles O49: the fault is the opcode fetch's or the handler's, and a handler's leaves the fetch's state but for a data read's
penalty. -/
theorem faultingStepChangesNoRegisterFlagOrMemory : Obligations.FaultingStepChangesNoRegisterFlagOrMemory := by
  intro P s r h
  rcases stepAt_eq_fault.mp h with ⟨hpc, rfl⟩ | ⟨op, hread, hexec⟩
  · exact .inl ⟨rfl, hpc⟩
  refine .inr ⟨op, hread, ?_⟩
  rcases execAt_eq_fault hexec with ⟨addr, n, hn, haddr, rfl⟩ | ⟨-, rfl⟩ | ⟨b, hb, rfl⟩
  case inl =>
    exact ⟨afterDataFault_frame n _, .inr (.inr ⟨addr, rfl, haddr, afterDataFault_cyc_of_le_one hn _⟩)⟩
  case inr.inl =>
    rw [opcode_decodeOpcode]
    exact ⟨rfl, .inl ⟨rfl, rfl, rfl⟩⟩
  case inr.inr =>
    obtain rfl := eq_of_decodeOpcode_eq_unsupported hb
    exact ⟨rfl, .inr (.inl ⟨rfl, rfl, rfl⟩)⟩

/-- Settles O14: `step` is a case of `stepAt`; a step at a readable opcode byte, outcome by outcome of the handler. -/
theorem stepRunsTheDecodedInstruction : Obligations.StepRunsTheDecodedInstruction := by
  refine (and_iff_right_of_imp fun general s op hread => ?_).mpr fun P s op hread => ?_
  · rw [step_eq_stepAt, exec_eq_execAt]
    exact general Config.params s op hread
  · rw [stepAt_of_read hread, ofNat_toNat_pc_succ]
    cases execAt P (decodeOpcode op) { s with curOp := op, pc := s.pc + 1 } with
    | next t => rw [andThen_next, replenish_eq]
    | fault r => rfl
    | refused r => rfl

/-- Settles O16, by the two branches of the replenishment. -/
theorem replenishAddsOnceWhenNegative : Obligations.ReplenishAddsOnceWhenNegative :=
  fun _ _ => ⟨fun hneg => if_pos hneg, fun hnonneg => if_neg (by omega)⟩

/-- Settles O17: the sum on `PC` is that of 16-bit words. -/
theorem finishAdvancesPcAndChargesBaseCycles : Obligations.FinishAdvancesPcAndChargesBaseCycles :=
  fun _ _ _ => ⟨by simp [BitVec.toNat_add], rfl, rfl⟩

/-- Settles O23, by the read of the operand byte. -/
theorem zeroPageXAndYBothAddXModulo256 : Obligations.ZeroPageXAndYBothAddXModulo256 :=
  fun _ _ _ h => ⟨resolve_zeroPageX_of_read h, resolve_zeroPageY.trans (resolve_zeroPageX_of_read h)⟩

/-- Settles O24, by the read of the operand byte and of the pointer. -/
theorem indexedIndirectReadsThePointerAtOperandPlusX : Obligations.IndexedIndirectReadsThePointerAtOperandPlusX := by
  intro P s b lo hi hb hlo hhi
  rw [resolve, memRead_eq_next.mpr hb, andThen_next, readPair_eq_next.mpr ⟨lo, hi, hlo, hhi, rfl⟩, andThen_next, littleEndian]

/-- Settles O26: ZeroPage reads the operand byte, the other two read nothing. -/
theorem zeroPageImmediateAndRelativeAddresses : Obligations.ZeroPageImmediateAndRelativeAddresses :=
  fun _ _ => ⟨fun _ hb => resolve_zeroPage_of_read hb, fun h => by rw [resolve, memRead_of_le h, andThen_fault], rfl, rfl⟩

end Sys2Proof
end

section
/-! SUPPORT. What ADC computes, in numbers: the sum's range, the one limit behind carry and result, the flags of a narrowed result,
and the overflow as a statement about bit 7; then the state a completed ADC leaves. -/

namespace Sys2Proof.Machine

variable {P : Params} {s : State}

/-! ### Zero and negative of a narrowed result -/

theorem isZero_ofNat {r : Nat} (hr : r < 256) : isZero (BitVec.ofNat 8 r) = decide (r = 0) := by
  rw [isZero, Bool.eq_iff_iff, beq_iff_eq, decide_eq_true_iff, ← BitVec.toNat_inj, BitVec.toNat_ofNat, Nat.mod_eq_of_lt hr]
  rfl

theorem isNegative_ofNat {r : Nat} (hr : r < 256) : isNegative (BitVec.ofNat 8 r) = decide (127 < r) := by
  rw [isNegative, BitVec.toNat_ofNat, Nat.mod_eq_of_lt hr]

/-! ### The sum, the carry and the result -/

theorem adcSum_eq (a m : Byte) (c : Bool) : adcSum a m c = m.toNat + a.toNat + (if c then 1 else 0) := by
  cases c <;> rfl

theorem adcSum_le (a m : Byte) (c : Bool) : adcSum a m c ≤ 511 := by
  have hc := c.toNat_le
  unfold adcSum
  omega

/-- The largest sum without carry (R80). -/
def adcLimit (d : Bool) : Nat := if d then 99 else 255

@[simp] theorem adcLimit_true : adcLimit true = 99 := rfl
@[simp] theorem adcLimit_false : adcLimit false = 255 := rfl

/-- The result before it is narrowed to a byte: what a carry takes off is one more than the limit (R80). -/
def adcResult (d : Bool) (sum : Nat) : Nat := if adcLimit d < sum then sum - (adcLimit d + 1) else sum

theorem adcCarry_eq (d : Bool) (sum : Nat) : adcCarry d sum = decide (adcLimit d < sum) := by
  cases d <;> rfl

theorem adcValue_eq (d : Bool) (sum : Nat) : adcValue d sum = BitVec.ofNat 8 (adcResult d sum) := by
  rw [adcValue, adcResult, adcCarry_eq]
  by_cases hcarry : adcLimit d < sum
  · rw [decide_eq_true hcarry, if_pos rfl, if_pos hcarry]
    cases d <;> rfl
  · rw [decide_eq_false hcarry, if_neg Bool.false_ne_true, if_neg hcarry]

/-- R80: the result fits in a byte, in decimal mode if the sum is at most 355. -/
theorem adcResult_lt {d : Bool} {sum : Nat} (hle : sum ≤ 511) (hd : d = true → sum ≤ 355) : adcResult d sum < 256 := by
  unfold adcResult
  cases d with
  | false => rw [adcLimit_false]; split <;> omega
  | true => have hle := hd rfl; rw [adcLimit_true]; split <;> omega

/-- R82, D12: the narrowing takes off the 256 that the decimal adjustment leaves too much. -/
theorem adcValue_decimal_of_gt {sum : Nat} (h : 355 < sum) : adcValue true sum = BitVec.ofNat 8 (sum - 356) := by
  have hresult : adcResult true sum = sum - 356 + 256 := by
    rw [adcResult, adcLimit_true, if_pos (by omega)]
    omega
  rw [adcValue_eq, hresult]
  exact BitVec.eq_of_toNat_eq (by simp)

/-! ### Overflow -/

theorem adcOverflow_eq (a m : Byte) (sum : Nat) :
    adcOverflow a m sum = decide ((a.toNat ^^^ sum) &&& (m.toNat ^^^ sum) &&& 0x80 ≠ 0) := by
  rw [adcOverflow, Bool.eq_iff_iff, bne_iff_ne, decide_eq_true_iff]

/-- R81: the mask 0x80 leaves bit 7 of the two differences from the sum. -/
theorem adcOverflow_eq_true_iff {a m : Byte} {sum : Nat} :
    adcOverflow a m sum = true ↔ a.msb = m.msb ∧ (BitVec.ofNat 8 sum).msb ≠ a.msb := by
  have hbit : adcOverflow a m sum = true ↔ ((a.toNat ^^^ sum) &&& (m.toNat ^^^ sum)).testBit 7 = true := by
    rw [adcOverflow, bne_iff_ne, show (0x80 : Nat) = 2 ^ 7 from rfl, Nat.and_two_pow]
    simp
  rw [hbit, Nat.testBit_and, Nat.testBit_xor, Nat.testBit_xor, BitVec.testBit_toNat, BitVec.testBit_toNat]
  simp only [BitVec.msb_eq_getLsbD_last, BitVec.getLsbD_ofNat]
  cases a.getLsbD 7 <;> cases m.getLsbD 7 <;> cases sum.testBit 7 <;> decide

/-! ### The instruction -/

theorem execAt_adc_of_fetch {m : AluMode} {o : Operand} (h : fetchOperand P m.tag s = .next o) :
    execAt P (.adc m) s = .next (finish P (.adc m) (addWithCarry o.value (chargePenalty o.penalty s))) :=
  readingHandler_of_fetch h

/-- R80: the state a completed ADC leaves, when the new accumulator is the byte `r`. -/
theorem execAt_adc_of_value {m : AluMode} {o : Operand} {r : Nat} (h : fetchOperand P m.tag s = .next o) (hr : r < 256)
    (hv : adcValue s.flagD (adcSum s.a o.value s.flagC) = BitVec.ofNat 8 r) :
    execAt P (.adc m) s = .next (finish P (.adc m) { s with
      a := BitVec.ofNat 8 r
      flagC := adcCarry s.flagD (adcSum s.a o.value s.flagC)
      flagV := adcOverflow s.a o.value (adcSum s.a o.value s.flagC)
      flagZ := decide (r = 0)
      flagN := decide (127 < r)
      cyc := s.cyc - o.penalty }) := by
  rw [execAt_adc_of_fetch h, ← isZero_ofNat hr, ← isNegative_ofNat hr, ← hv]
  rfl

end Sys2Proof.Machine
end

section
/-! PROOFS. The statements of 41_adc.md: the sum with its flags in both modes, the decimal sum above 355, and the overflow. -/

namespace Sys2Proof

open Sys2Proof.Machine

/-- Settles O29: the result fits in a byte, so that narrowing keeps it and its flags. -/
theorem adcAddsMemoryAndCarry : Obligations.AdcAddsMemoryAndCarry := by
  intro P m s o h
  rw [← adcSum_eq]
  intro sum hdecimal limit r
  rw [execAt_adc_of_value h (adcResult_lt (adcSum_le ..) hdecimal) (adcValue_eq ..), adcCarry_eq, adcOverflow_eq]
  rfl

/-- Settles O30: above 355 the decimal result is 256 more than the byte it is narrowed to. -/
theorem adcDecimalAbove355ReducesModulo256 : Obligations.AdcDecimalAbove355ReducesModulo256 := by
  intro P m s o h hD
  rw [← adcSum_eq]
  intro sum hsum r
  have hle : sum ≤ 511 := adcSum_le ..
  have hcarry : adcCarry s.flagD sum = true := by
    rw [hD, adcCarry_eq, adcLimit_true, decide_eq_true_iff]
    omega
  have hvalue : adcValue s.flagD sum = BitVec.ofNat 8 r := by rw [hD, adcValue_decimal_of_gt hsum]
  rw [execAt_adc_of_value h (by omega) hvalue, hcarry, adcOverflow_eq]

/-- Settles O31: `V` is `adcOverflow` of the old `A`, the operand and the raw sum. -/
theorem adcOverflowIsSignedOverflow : Obligations.AdcOverflowIsSignedOverflow := by
  intro P m s t o ho ht
  rw [execAt_adc_of_fetch ho, Host.Outcome.next.injEq] at ht
  rw [← ht]
  exact adcOverflow_eq_true_iff

end Sys2Proof
end

section
/-! SUPPORT. The zero and negative flags of a byte as numbers, and the state an instruction leaves that puts a combination of `A` and
its operand into `A`. -/

namespace Sys2Proof.Machine

variable {P : Params} {s : State}

/-! ### Zero and negative of a byte -/

theorem isZero_eq (v : Byte) : isZero v = decide (v.toNat = 0) := by
  simpa using isZero_ofNat v.isLt

/-- R11: the two flags as statements about the byte's number. -/
theorem setZN_eq (v : Byte) (s : State) :
    setZN v s = { s with flagZ := decide (v.toNat = 0), flagN := decide (127 < v.toNat) } := by
  rw [← isZero_eq]
  rfl

/-! ### A result in the accumulator -/

/-- R83: the result `r` in `A` with its flags, after the penalty. -/
theorem setAccumulator_chargePenalty (r : Byte) (n : Nat) (s : State) : setAccumulator r (chargePenalty n s) =
    { s with a := r, flagZ := decide (r.toNat = 0), flagN := decide (127 < r.toNat), cyc := s.cyc - n } :=
  setZN_eq ..

/-- R83: a handler that combines `A` with its operand by `op` completes, the combination in `A`. -/
theorem combiningHandler_of_fetch {i : Instr} {mode : AddressingMode} {o : Operand} (op : Byte → Byte → Byte)
    (h : fetchOperand P mode s = .next o) :
    readingHandler P i mode (fun v t => setAccumulator (op t.a v) t) s = .next (finish P i { s with
      a := op s.a o.value
      flagZ := decide ((op s.a o.value).toNat = 0)
      flagN := decide (127 < (op s.a o.value).toNat)
      cyc := s.cyc - o.penalty }) := by
  rw [readingHandler_of_fetch h, chargePenalty_a, setAccumulator_chargePenalty]

end Sys2Proof.Machine
end

section
/-! PROOFS. The statement of 42_logic.md: the three bitwise combinations. -/

namespace Sys2Proof

open Sys2Proof.Machine

/-- Settles O32: the three handlers differ in the combination only. -/
theorem logicCombinesAccumulatorBitwise : Obligations.LogicCombinesAccumulatorBitwise :=
  fun _ _ _ _ h => ⟨combiningHandler_of_fetch (· &&& ·) h, combiningHandler_of_fetch (· ||| ·) h,
    combiningHandler_of_fetch (· ^^^ ·) h⟩

end Sys2Proof
end

section
/-! SUPPORT. The shifts and rotates as numbers: result and carry out of each of the four; then the state a shift of the accumulator
leaves, what a read-modify-write handler leaves, and so what a shift of a memory byte leaves. -/

namespace Sys2Proof.Machine

variable {P : Params} {s : State} {i : Instr} {o : Operand}

/-! ### The carry out -/

theorem getLsbD_seven_eq (v : Byte) : v.getLsbD 7 = decide (128 ≤ v.toNat) :=
  BitVec.msb_eq_decide v

theorem getLsbD_zero_eq (v : Byte) : v.getLsbD 0 = decide (v.toNat % 2 = 1) :=
  Nat.testBit_zero v.toNat

theorem shiftLeft_carry (v : Byte) (cin : Bool) : (shiftLeft v cin).2 = decide (128 ≤ v.toNat) := getLsbD_seven_eq v
theorem shiftRight_carry (v : Byte) (cin : Bool) : (shiftRight v cin).2 = decide (v.toNat % 2 = 1) := getLsbD_zero_eq v
theorem rotateLeft_carry (v : Byte) (cin : Bool) : (rotateLeft v cin).2 = decide (128 ≤ v.toNat) := getLsbD_seven_eq v
theorem rotateRight_carry (v : Byte) (cin : Bool) : (rotateRight v cin).2 = decide (v.toNat % 2 = 1) := getLsbD_zero_eq v

/-! ### The result -/

/-- R88. -/
theorem shiftLeft_toNat (v : Byte) (cin : Bool) : (shiftLeft v cin).1.toNat = 2 * v.toNat % 256 := by
  rw [shiftLeft, BitVec.toNat_shiftLeft, Nat.shiftLeft_eq, Nat.mul_comm]

/-- R89. -/
theorem shiftRight_toNat (v : Byte) (cin : Bool) : (shiftRight v cin).1.toNat = v.toNat / 2 := by
  rw [shiftRight, BitVec.toNat_ushiftRight, Nat.shiftRight_eq_div_pow]

/-- R90: the shifted value is even, so that the carry in takes a free bit. -/
theorem rotateLeft_toNat (v : Byte) (cin : Bool) :
    (rotateLeft v cin).1.toNat = 2 * v.toNat % 256 + (if cin then 1 else 0) := by
  have hshift : (v <<< 1).toNat = 2 ^ 1 * (v.toNat % 128) := (shiftLeft_toNat v cin).trans (by omega)
  have hcarry : (BitVec.ofNat 8 cin.toNat).toNat = if cin then 1 else 0 := by cases cin <;> rfl
  rw [rotateLeft, BitVec.toNat_or, hshift, hcarry, ← Nat.two_pow_add_eq_or_of_lt (by split <;> decide)]
  omega

/-- R91: the shifted value is below 128, so that the carry in takes a free bit. -/
theorem rotateRight_toNat (v : Byte) (cin : Bool) :
    (rotateRight v cin).1.toNat = v.toNat / 2 + 128 * (if cin then 1 else 0) := by
  have hv := v.isLt
  have hshift : (v >>> 1).toNat = v.toNat / 2 := shiftRight_toNat v cin
  have hcarry : (BitVec.ofNat 8 (cin.toNat * 128)).toNat = 2 ^ 7 * (if cin then 1 else 0) := by cases cin <;> rfl
  rw [rotateRight, BitVec.toNat_or, hshift, hcarry, Nat.or_comm, ← Nat.two_pow_add_eq_or_of_lt (by omega), Nat.add_comm]

/-! ### The flags -/

/-- R87: the three flags, zero and negative as statements about the result's number. -/
theorem setShiftFlags_eq (r : Byte × Bool) (s : State) : setShiftFlags r s =
    { s with flagC := r.2, flagZ := decide (r.1.toNat = 0), flagN := decide (127 < r.1.toNat) } :=
  setZN_eq ..

/-! ### The handlers -/

/-- A read-modify-write handler whose effect leaves memory alone writes its result where it read the operand, and nowhere else. -/
theorem modifyingHandler_wroteByte {mode : AddressingMode} {result : Byte → State → Byte} {effect : Byte → State → State}
    (hmem : ∀ v t, (effect v t).mem = t.mem) (hw : s.mem.wf P) (h : fetchOperand P mode s = .next o) :
    ∃ t, modifyingHandler P i mode result effect s = .next t ∧
      WroteByte P i (effect o.value (chargePenalty o.penalty s)) o.addr (result o.value s) t := by
  obtain ⟨m, hwrite, hnext⟩ := modifyingHandler_of_fetch (i := i) (result := result) hmem h
  refine ⟨_, hnext, rfl, Memory.read_write_same hw hwrite, fun other hother => ?_⟩
  rw [hmem]
  exact Memory.read_write_other hwrite hother

variable {op : Byte → Bool → Byte × Bool} {n : Nat} {carry : Bool}

/-- R87: the accumulator shifted by `op`, whose result is the number `n`. -/
theorem shiftHandler_accumulator (hn : (op s.a s.flagC).1.toNat = n) (hcarry : (op s.a s.flagC).2 = carry) :
    shiftHandler P i .accumulator op s = .next (finish P i { s with
      a := BitVec.ofNat 8 n, flagC := carry, flagZ := decide (n = 0), flagN := decide (127 < n) }) := by
  subst hn hcarry
  rw [shiftHandler, registerHandler, setShiftFlags_eq, BitVec.ofNat_toNat, BitVec.setWidth_eq]

theorem shiftHandler_of_ne_accumulator {m : ShiftMode} (hm : m ≠ .accumulator) : shiftHandler P i m op s =
    modifyingHandler P i m.tag (fun v t => (op v t.flagC).1) (fun v t => setShiftFlags (op v t.flagC) t) s := by
  cases m with
  | accumulator => exact absurd rfl hm
  | zeroPage | zeroPageX | absolute | absoluteX => rfl

/-- R87: a memory byte shifted by `op`, whose result is the number `n`. -/
theorem shiftHandler_wroteByte {m : ShiftMode} (hm : m ≠ .accumulator) (h : fetchOperand P m.tag s = .next o) (hw : s.mem.wf P)
    (hn : (op o.value s.flagC).1.toNat = n) (hcarry : (op o.value s.flagC).2 = carry) :
    ∃ t, shiftHandler P i m op s = .next t ∧ WroteByte P i
      { s with flagC := carry, flagZ := decide (n = 0), flagN := decide (127 < n), cyc := s.cyc - o.penalty }
      o.addr (BitVec.ofNat 8 n) t := by
  subst hn hcarry
  rw [shiftHandler_of_ne_accumulator hm, BitVec.ofNat_toNat, BitVec.setWidth_eq]
  have hwrote := modifyingHandler_wroteByte (i := i) (result := fun v t => (op v t.flagC).1)
    (effect := fun v t => setShiftFlags (op v t.flagC) t) (fun _ _ => rfl) hw h
  rwa [setShiftFlags_eq] at hwrote

end Sys2Proof.Machine
end

section
/-! PROOFS. The statements of 43_shift_rotate.md: the shifts and rotates of the accumulator and of a memory byte. -/

namespace Sys2Proof

open Sys2Proof.Machine

/-- Settles O33: the four handlers differ in the bit operation only. -/
theorem shiftsOfTheAccumulator : Obligations.ShiftsOfTheAccumulator :=
  fun _ _ => ⟨shiftHandler_accumulator (shiftLeft_toNat ..) (shiftLeft_carry ..),
    shiftHandler_accumulator (shiftRight_toNat ..) (shiftRight_carry ..),
    shiftHandler_accumulator (rotateLeft_toNat ..) (rotateLeft_carry ..),
    shiftHandler_accumulator (rotateRight_toNat ..) (rotateRight_carry ..)⟩

/-- Settles O34: the four handlers differ in the bit operation only. -/
theorem shiftsOfMemory : Obligations.ShiftsOfMemory :=
  fun _ _ _ _ hm h hw => ⟨shiftHandler_wroteByte hm h hw (shiftLeft_toNat ..) (shiftLeft_carry ..),
    shiftHandler_wroteByte hm h hw (shiftRight_toNat ..) (shiftRight_carry ..),
    shiftHandler_wroteByte hm h hw (rotateLeft_toNat ..) (rotateLeft_carry ..),
    shiftHandler_wroteByte hm h hw (rotateRight_toNat ..) (rotateRight_carry ..)⟩

end Sys2Proof
end

section
/-! SUPPORT. The wrapped difference of a compare, in numbers, and the flags it gives; the flags of BIT; then the state
a compare leaves. -/

namespace Sys2Proof.Machine

variable {P : Params} {s : State}

/-! ### The wrapped difference -/

/-- R93: a difference that is not negative stays as it is. -/
theorem compareDiff_of_le {r m : Byte} (h : m.toNat ≤ r.toNat) : compareDiff r m = (r.toNat : Int) - m.toNat :=
  if_neg (by omega)

/-- R93: a negative difference is wrapped. -/
theorem compareDiff_of_lt {r m : Byte} (h : r.toNat < m.toNat) : compareDiff r m = (r.toNat : Int) - m.toNat + 0x10000 :=
  if_pos (by omega)

/-- The wrap gives no zero: it takes a difference of two bytes to 0xFF01 or more. -/
theorem compareDiff_eq_zero_iff {r m : Byte} : compareDiff r m = 0 ↔ r = m := by
  have hm := m.isLt
  rw [← BitVec.toNat_inj]
  rcases Nat.lt_or_ge r.toNat m.toNat with hlt | hle
  · rw [compareDiff_of_lt hlt]; omega
  · rw [compareDiff_of_le hle]; omega

/-- D11: every wrapped difference is above 127. -/
theorem lt_compareDiff_iff {r m : Byte} : 127 < compareDiff r m ↔ r.toNat < m.toNat ∨ 127 < r.toNat - m.toNat := by
  have hm := m.isLt
  rcases Nat.lt_or_ge r.toNat m.toNat with hlt | hle
  · rw [compareDiff_of_lt hlt]; omega
  · rw [compareDiff_of_le hle]; omega

/-! ### The flags -/

/-- R93: the three flags as statements about the two bytes' numbers. -/
theorem compareFlags_eq (r m : Byte) (s : State) : compareFlags r m s = { s with
    flagC := decide (m.toNat ≤ r.toNat), flagZ := decide (r = m)
    flagN := decide (r.toNat < m.toNat ∨ 127 < r.toNat - m.toNat) } := by
  simp only [compareFlags, compareDiff_eq_zero_iff, lt_compareDiff_iff]

/-- R92: zero as a statement about the number of the AND. -/
theorem bitTest_eq (m : Byte) (s : State) : bitTest m s = { s with
    flagV := m.getLsbD 6, flagN := m.getLsbD 7, flagZ := decide ((m &&& s.a).toNat = 0) } := by
  rw [bitTest, isZero_eq]

/-! ### The handlers -/

/-- R93: a handler that compares the register `reg`, which the penalty leaves alone, with its operand. -/
theorem comparingHandler_of_fetch {i : Instr} {mode : AddressingMode} {o : Operand} {reg : State → Byte}
    (hreg : ∀ t n, reg (chargePenalty n t) = reg t) (h : fetchOperand P mode s = .next o) :
    readingHandler P i mode (fun v t => compareFlags (reg t) v t) s = .next (finish P i { s with
      flagC := decide (o.value.toNat ≤ (reg s).toNat), flagZ := decide (reg s = o.value)
      flagN := decide ((reg s).toNat < o.value.toNat ∨ 127 < (reg s).toNat - o.value.toNat)
      cyc := s.cyc - o.penalty }) := by
  rw [readingHandler_of_fetch h, hreg, compareFlags_eq]
  rfl

end Sys2Proof.Machine
end

section
/-! PROOFS. The statements of 44_bit_compare.md: BIT and the three compares. -/

namespace Sys2Proof

open Sys2Proof.Machine

/-- Settles O35: the flags are those of `bitTest`, which reads the `A` that the penalty leaves alone. -/
theorem bitTestsTheOperand : Obligations.BitTestsTheOperand := by
  intro P m s o h
  refine (readingHandler_of_fetch h).trans ?_
  rw [bitTest_eq]
  rfl

/-- Settles O36: the three handlers differ in the register only. -/
theorem compareSetsFlagsFromTheWrappedDifference : Obligations.CompareSetsFlagsFromTheWrappedDifference :=
  fun _ _ _ => ⟨fun _ h => comparingHandler_of_fetch (reg := State.a) chargePenalty_a h,
    fun _ h => ⟨comparingHandler_of_fetch (reg := State.x) chargePenalty_x h,
      comparingHandler_of_fetch (reg := State.y) chargePenalty_y h⟩⟩

end Sys2Proof
end

section
/-! SUPPORT. A byte counted up or down, in numbers; then the state a count of a memory byte leaves and the state a count of a register
leaves. -/

namespace Sys2Proof.Machine

variable {P : Params} {s : State} {i : Instr}

/-! ### The count -/

/-- R97. -/
theorem toNat_add_one (v : Byte) : (v + 1).toNat = (v.toNat + 1) % 256 := BitVec.toNat_add v 1

/-- R97: one less is 255 more modulo 256. -/
theorem toNat_sub_one (v : Byte) : (v - 1).toNat = (v.toNat + 255) % 256 := by
  rw [Nat.add_comm]
  exact BitVec.toNat_sub v 1

/-! ### The handlers -/

variable {count : Byte → Byte} {n : Nat}

/-- R97: a memory byte counted by `count`, whose result is the number `n`. -/
theorem countingHandler_wroteByte {mode : AddressingMode} {o : Operand} (h : fetchOperand P mode s = .next o) (hw : s.mem.wf P)
    (hn : (count o.value).toNat = n) :
    ∃ t, modifyingHandler P i mode (fun v _ => count v) (fun v t => setZN (count v) t) s = .next t ∧ WroteByte P i
      { s with flagZ := decide (n = 0), flagN := decide (127 < n), cyc := s.cyc - o.penalty } o.addr (BitVec.ofNat 8 n) t := by
  subst hn
  have hwrote := modifyingHandler_wroteByte (i := i) (result := fun v _ => count v)
    (effect := fun v t => setZN (count v) t) (fun _ _ => rfl) hw h
  rw [BitVec.ofNat_toNat, BitVec.setWidth_eq]
  rwa [setZN_eq] at hwrote

/-- R97: the register that `reg` reads and `put` writes counted by `count`, whose result is the number `n`. -/
theorem countingHandler_register (reg : State → Byte) (put : Byte → State → State) (hn : (count (reg s)).toNat = n) :
    registerHandler P i (fun t => setZN (count (reg t)) (put (count (reg t)) t)) s =
      .next (finish P i { put (BitVec.ofNat 8 n) s with flagZ := decide (n = 0), flagN := decide (127 < n) }) := by
  subst hn
  rw [registerHandler, setZN_eq, BitVec.ofNat_toNat, BitVec.setWidth_eq]

end Sys2Proof.Machine
end

section
/-! PROOFS. The statements of 45_incdec.md: the counts of a memory byte and of the index registers. -/

namespace Sys2Proof

open Sys2Proof.Machine

/-- Settles O37: the two handlers differ in the count only. -/
theorem countsOfMemory : Obligations.CountsOfMemory :=
  fun _ _ _ _ h hw => ⟨countingHandler_wroteByte (count := (· + 1)) h hw (toNat_add_one _),
    countingHandler_wroteByte (count := (· - 1)) h hw (toNat_sub_one _)⟩

/-- Settles O38: the four handlers differ in the register and the count only. -/
theorem countsOfIndexRegisters : Obligations.CountsOfIndexRegisters :=
  fun _ s => ⟨countingHandler_register (count := (· + 1)) State.x (fun v t => { t with x := v }) (toNat_add_one s.x),
    countingHandler_register (count := (· - 1)) State.x (fun v t => { t with x := v }) (toNat_sub_one s.x),
    countingHandler_register (count := (· + 1)) State.y (fun v t => { t with y := v }) (toNat_add_one s.y),
    countingHandler_register (count := (· - 1)) State.y (fun v t => { t with y := v }) (toNat_sub_one s.y)⟩

end Sys2Proof
end

section
/-! SUPPORT. The displacement and the target of a branch, in numbers; then what a handler of a branch answers in each of its three cases,
and which instructions have such a handler. -/

namespace Sys2Proof.Machine

variable {P : Params} {i : Instr} {s t : State}

/-! ### The displacement and the target -/

/-- R50: the magnitude is the offset byte modulo 128. -/
theorem branchDisplacement_eq (off : Byte) : branchDisplacement off =
    if 127 < off.toNat then -((off.toNat % 128 : Nat) : Int) else (off.toNat : Int) := by
  have hmagnitude : (off &&& 0x7F).toNat = off.toNat % 128 :=
    (BitVec.toNat_and ..).trans (Nat.and_two_pow_sub_one_eq_mod off.toNat 7)
  rw [branchDisplacement, hmagnitude]

/-- R11: the wrap is modulo 0x10000. -/
theorem wrap16_emod (v : Int) : wrap16 v % 0x10000 = v % 0x10000 := by
  unfold wrap16
  split_ifs <;> omega

/-- R104: the address one after the wrapped sum is that sum plus one, modulo 0x10000. -/
theorem ofInt_wrap16_add_one (v : Int) :
    BitVec.ofInt 16 (wrap16 v) + 1 = BitVec.ofNat 16 ((v + 1) % 0x10000).toNat := by
  have hwrap := wrap16_emod v
  apply BitVec.eq_of_toNat_eq
  simp only [BitVec.toNat_add, BitVec.toNat_ofInt, BitVec.toNat_ofNat, BitVec.reduceToNat]
  omega

/-- R104, R75: one cycle for a taken branch, two when the raw target needs the wrap. -/
theorem ite_leavesRange (v : Int) :
    (if leavesRange v then 2 else 1 : Int) = if 0 ≤ v ∧ v ≤ 0xFFFF then 1 else 2 := by
  simp only [leavesRange, decide_eq_true_eq]
  split_ifs <;> omega

/-! ### The handler of a branch -/

/-- R76: an instruction of two bytes moves `PC` by one. -/
theorem finish_of_length_two (h : i.length = 2) (s : State) :
    finish P i s = { s with pc := s.pc + 1, cyc := s.cyc - (P.baseCycles i.opcode : Int) } := by
  rw [finish, h]; rfl

theorem fetchOperand_relative_of_read {off : Byte} (h : s.mem.read P s.pc.toNat = some off) :
    fetchOperand P .relative s = .next ⟨s.pc.toNat, off, 0⟩ :=
  fetchOperand_eq_next.mpr ⟨rfl, h⟩

/-- R104: a branch that is not taken only completes. -/
theorem branchHandler_false (h : i.length = 2) : branchHandler P i false s = .next { s with
    pc := s.pc + 1, cyc := s.cyc - (P.baseCycles i.opcode : Int) } := by
  rw [← finish_of_length_two h]; rfl

/-- R104: a taken branch reads its offset byte and completes after `takeBranch`. -/
theorem branchHandler_true_of_read {off : Byte} (h : s.mem.read P s.pc.toNat = some off) :
    branchHandler P i true s = .next (finish P i (takeBranch off s)) := by
  have hread := readingHandler_of_fetch (i := i) (effect := takeBranch) (fetchOperand_relative_of_read h)
  rwa [chargePenalty_zero] at hread

/-- R104, R139: the offset byte of a taken branch is the only byte it reads, and no penalty is due for its address. -/
theorem branchHandler_true_of_unreadable (h : P.capacity ≤ s.pc.toNat) :
    branchHandler P i true s = .fault (.outOfRange s.pc.toNat s) := by
  have hfetch := fetchOperand_of_unreadable (mode := .relative) (s := s) (e := ⟨s.pc.toNat, 0⟩) rfl h
  rw [afterDataFault_zero] at hfetch
  exact readingHandler_eq_fault.mpr hfetch

/-! ### The eight branches -/

/-- R105 to R112: the handler of an instruction that tests a flag is that of a branch with the outcome of its test. -/
theorem execAt_of_branchTest {taken : Bool} (h : i.branchTest s = some taken) : execAt P i s = branchHandler P i taken s := by
  cases i with
  | bcc | bne | bpl | bvc => rw [← Option.some.inj h, beq_false]; rfl
  | bcs | beq | bmi | bvs => rw [← Option.some.inj h, beq_true]; rfl
  | _ => cases h

theorem mode_and_baseCycles_of_branchTest {taken : Bool} (h : i.branchTest s = some taken) :
    i.mode = some .relative ∧ i.baseCycles = 2 := by
  cases i with
  | bcc | bcs | beq | bne | bmi | bpl | bvc | bvs => exact ⟨rfl, rfl⟩
  | _ => cases h

theorem length_of_branchTest {taken : Bool} (h : i.branchTest s = some taken) : i.length = 2 :=
  length_of_mode (mode_and_baseCycles_of_branchTest h).1

/-! ### The other instructions -/

/-- R114 (a), R76: a completed instruction that does not transfer control moves `PC` past its operand bytes. -/
theorem execAt_pc (hi : i.transfersControl = false) (h : execAt P i s = .next t) :
    t.pc = s.pc + BitVec.ofNat 16 (i.length - 1) := by
  rcases execAt_eq_next h with ⟨rfl, -⟩ | ⟨n, u, m, -, frame, rfl, -⟩
  · cases hi
  · rw [finish_pc, show u.pc = s.pc from frame.pc hi]

end Sys2Proof.Machine
end

section
/-! PROOFS. The statements of 46_branch_jump.md: the branches, JMP, and the instructions that transfer no control. -/

namespace Sys2Proof

open Sys2Proof.Machine

/-- Settles O39, by the three answers of a branch's handler. -/
theorem branchesFollowTheirFlag : Obligations.BranchesFollowTheirFlag := by
  intro P i s
  refine ⟨fun h => ?kind, fun h => ?notTaken, fun h off hoff => ?taken, fun h hcap => ?unreadable⟩
  case kind =>
    obtain ⟨taken, h⟩ := Option.ne_none_iff_exists'.mp h
    obtain ⟨hmode, hbase⟩ := mode_and_baseCycles_of_branchTest h
    exact ⟨hmode, length_of_branchTest h, (params_baseCycles (wf_of_mode hmode)).trans hbase⟩
  case notTaken =>
    rw [execAt_of_branchTest h, branchHandler_false (length_of_branchTest h), ofNat_toNat_pc_succ]
  case taken =>
    intro d target
    rw [execAt_of_branchTest h, branchHandler_true_of_read hoff, finish_of_length_two (length_of_branchTest h),
      takeBranch_pc, takeBranch_cyc, branchDisplacement_eq, ofInt_wrap16_add_one, ite_leavesRange, sub_right_comm]
    rfl
  case unreadable => rw [execAt_of_branchTest h, branchHandler_true_of_unreadable hcap]

/-- Settles O40: the target is the pair of operand bytes that mode Absolute reads. -/
theorem jmpSetsPcToTheOperand : Obligations.JmpSetsPcToTheOperand := by
  intro P s lo hi hlo hhi
  rw [execAt, execJmp, resolve_absolute_of_read hlo hhi, andThen_next, littleEndian]

/-- Settles O41: the sum is one of 16-bit words. -/
theorem onlyBranchesAndJmpTransferControl : Obligations.OnlyBranchesAndJmpTransferControl := by
  intro P i s t hi h
  rw [execAt_pc hi h, BitVec.toNat_add, BitVec.toNat_ofNat, Nat.add_mod_mod]

end Sys2Proof
end

section
/-! SUPPORT. The state a load leaves, whichever register it puts the operand into. -/

namespace Sys2Proof.Machine

variable {P : Params} {s : State}

/-- R115: a handler that puts its operand into the register that `put` writes, with zero and negative of it. -/
theorem loadingHandler_of_fetch {i : Instr} {mode : AddressingMode} {o : Operand} (put : Byte → State → State)
    (h : fetchOperand P mode s = .next o) :
    readingHandler P i mode (fun v t => setZN v (put v t)) s = .next (finish P i { put o.value (chargePenalty o.penalty s) with
      flagZ := decide (o.value.toNat = 0), flagN := decide (127 < o.value.toNat) }) := by
  rw [readingHandler_of_fetch h, setZN_eq]

end Sys2Proof.Machine
end

section
/-! PROOFS. The statements of 47_load_store.md: the three loads, and STX and STY, which load too. -/

namespace Sys2Proof

open Sys2Proof.Machine

/-- Settles O42: the three handlers differ in the register only. -/
theorem loadsCopyMemoryAndSetZeroNegative : Obligations.LoadsCopyMemoryAndSetZeroNegative :=
  fun _ _ _ => ⟨fun _ h => loadingHandler_of_fetch (fun v t => { t with a := v }) h,
    fun _ h => loadingHandler_of_fetch (fun v t => { t with x := v }) h,
    fun _ h => loadingHandler_of_fetch (fun v t => { t with y := v }) h⟩

/-- Settles O43: a handler that only reads writes no memory, and the effect of these two is the register alone. -/
theorem stxAndStyCopyMemoryIntoTheRegister : Obligations.StxAndStyCopyMemoryIntoTheRegister :=
  fun _ _ _ => ⟨fun _ h => readingHandler_of_fetch (effect := fun v t => { t with x := v }) h,
    fun _ h => readingHandler_of_fetch (effect := fun v t => { t with y := v }) h⟩

end Sys2Proof
end

section
/-! SUPPORT. What `Finish` is for an instruction of one byte, and what a step leaves at a byte whose instruction only
faults. -/

namespace Sys2Proof.Machine

variable {P : Params} {i : Instr} {s : State}

/-! ### `Finish` -/

/-- R76: an instruction of one byte leaves `PC` where the fetch put it. -/
theorem finish_of_length_one (h : i.length = 1) (s : State) :
    finish P i s = { s with cyc := s.cyc - (P.baseCycles i.opcode : Int) } := by
  simp [finish, h]

/-! ### Instructions that only fault -/

/-- R54, R129, R130: a listed byte decodes to its unimplemented instruction, whose handler faults with the byte. -/
theorem decodeOpcode_and_execAt_of_mem_unimplementedInstructions {b : Byte} (h : (i, b) ∈ unimplementedInstructions) :
    decodeOpcode b = i ∧ ∀ P s, execAt P i s = .fault (.unimplemented b s) := by
  simp only [unimplementedInstructions, List.mem_cons, Prod.mk.injEq, List.not_mem_nil, or_false] at h
  rcases h with ⟨rfl, rfl⟩ | ⟨rfl, rfl⟩ | ⟨rfl, rfl⟩ | ⟨rfl, rfl⟩ | ⟨rfl, rfl⟩ | ⟨rfl, rfl⟩ | ⟨rfl, rfl⟩ | ⟨rfl, rfl⟩ <;>
    exact ⟨rfl, fun _ _ => rfl⟩

/-- R60, R139: when the handler of a byte's instruction only raises a fault, a step at that byte leaves what the fetch wrote. -/
theorem exec_execAt_and_stepAt_of_fault {b : Byte} {kind : State → Fault} (hb : decodeOpcode b = i)
    (h : ∀ P s, execAt P i s = .fault (kind s)) (s : State) :
    exec i s = .fault (kind s) ∧ ∀ P : Params, execAt P i s = .fault (kind s) ∧
      (s.mem.read P s.pc.toNat = some b → stepAt P s = .fault (kind { s with curOp := b, pc := s.pc + 1 })) :=
  ⟨(exec_eq_execAt i s).trans (h _ s), fun P => ⟨h P s, fun hread => stepAt_eq_fault.mpr (.inr ⟨b, hread, hb ▸ h P _⟩)⟩⟩

end Sys2Proof.Machine
end

section
/-! PROOFS. The statements of 48_flags_brk.md: the flag instructions, and the instructions that only fault. -/

namespace Sys2Proof

open Sys2Proof.Machine

/-- Settles O46: each of the eight bytes decodes to its instruction, whose handler only faults. -/
theorem unimplementedInstructionsFault : Obligations.UnimplementedInstructionsFault := by
  intro i b h
  obtain ⟨hdecode, hfault⟩ := decodeOpcode_and_execAt_of_mem_unimplementedInstructions h
  exact exec_execAt_and_stepAt_of_fault hdecode hfault

/-- Settles O47: a listed byte decodes to the unsupported instruction of itself, whose handler only faults. -/
theorem unsupportedBytesFault : Obligations.UnsupportedBytesFault :=
  fun _ h => exec_execAt_and_stepAt_of_fault (decodeOpcode_eq_unsupported_iff.mpr h) fun _ _ => rfl

/-- Settles O44: the seven have length 1, and their handlers are `finish` after the write of the flag. -/
theorem flagInstructionsWriteOneFlag : Obligations.FlagInstructionsWriteOneFlag := by
  refine ⟨by decide, fun P s => ?_⟩
  refine ⟨?clc, ?cld, ?cli, ?clv, ?sec, ?sed, ?sei⟩ <;> exact congrArg Host.Outcome.next (finish_of_length_one rfl _)

/-- Settles O45: BRK is the first of the eight. -/
theorem brkFaultsAsUnimplemented : Obligations.BrkFaultsAsUnimplemented := by
  intro P s hread
  obtain ⟨-, hfault⟩ := unimplementedInstructionsFault .brk 0x00 (by decide) s
  rw [ofNat_toNat_pc_succ]
  exact (hfault P).2 hread

end Sys2Proof
end

section
/-! PROOFS. The statement of 60_exceptions.md: the opcode fetch that faults. -/

namespace Sys2Proof

open Sys2Proof.Machine

/-- Settles O48: the fetch is the step's first phase. -/
theorem opcodeFetchOutOfRangeChangesNothing : Obligations.OpcodeFetchOutOfRangeChangesNothing :=
  fun _ _ h => stepAt_eq_fault.mpr (.inl ⟨h, rfl⟩)

end Sys2Proof
end

section
/-! SUPPORT. A three-byte instruction whose high operand byte cannot be read, and the base cycles of a branch. -/

namespace Sys2Proof

/-- R57: an instruction that only faults has no addressing mode. -/
theorem mode_of_not_executable {i : Instr} (h : i.executable = false) : i.mode = none := by
  cases i with
  | brk | jsr | rts | rti | pha | pla | php | plp | unsupported => rfl
  | _ => cases h

theorem executable_of_length_eq_three {i : Instr} (h : i.length = 3) : i.executable = true := by
  by_contra hi
  have hlen := length_of_mode_eq_none (mode_of_not_executable (Bool.not_eq_true _ ▸ hi))
  omega

/-- R53: only the branches have mode Relative, and their base cost is 2. -/
theorem baseCycles_of_relative {i : Instr} (h : i.mode = some .relative) : i.baseCycles = 2 := by
  cases i with
  | bcc | bcs | beq | bne | bmi | bpl | bvc | bvs => rfl
  | adc m | and m | ora m | eor m | cmp m | lda m | asl m | lsr m | rol m | ror m => cases m <;> cases h
  | dec m | inc m | bit m | cpx m | cpy m | ldx m | ldy m | stx m | sty m => cases m <;> cases h
  | _ => cases h

/-- R160: two extra cycles are a branch's only, whose base cost is 2, so no charge is above 8. -/
theorem baseCycles_add_extra_bounds {i : Instr} {extra : Nat} (hi : i.executable = true) (hle : extra ≤ 2)
    (hrel : extra = 2 → i.mode = some .relative) : 2 ≤ i.baseCycles + extra ∧ i.baseCycles + extra ≤ 8 := by
  obtain ⟨hlow, hhigh⟩ := Machine.baseCycles_bounds hi
  rcases Nat.lt_or_eq_of_le hle with hlt | rfl
  · omega
  · have hbase := baseCycles_of_relative (hrel rfl)
    omega

end Sys2Proof

namespace Sys2Proof.Machine

variable {P : Params} {i : Instr} {s : State}

/-- R65, D10: the modes with two operand bytes read them first, the high one at the capacity. -/
theorem resolve_of_second_unreadable {mode : AddressingMode} (hmode : mode.operandCount = 2) (h : P.capacity = s.pc.toNat + 1) :
    resolve P mode s = .fault (.outOfRange (s.pc.toNat + 1) s) := by
  cases mode with
  | absolute | absoluteX | absoluteY => rw [resolve, readPair_of_second_unreadable h, andThen_fault]
  | _ => cases hmode

/-- R78, R158: the fault of the high operand byte is the handler's. -/
theorem execAt_of_second_unreadable (hlen : i.length = 3) (h : P.capacity = s.pc.toNat + 1) :
    execAt P i s = .fault (.outOfRange (s.pc.toNat + 1) s) := by
  have hfetch : ∀ mode, i.mode = some mode → fetchOperand P mode s = .fault (.outOfRange (s.pc.toNat + 1) s) := by
    intro mode hmode
    have hcount : mode.operandCount = 2 := by rw [length_of_mode hmode] at hlen; omega
    rw [fetchOperand, resolve_of_second_unreadable hcount h, andThen_fault]
  have hexec := executable_of_length_eq_three hlen
  have hs := execAt_shape P i s
  generalize execAt P i s = x at hs
  cases hs with
  | register hlen' => exact absurd hlen hlen'
  | reading mode _ hmode => exact readingHandler_eq_fault.mpr (hfetch mode hmode)
  | modifying mode _ hmode _ _ _ frame =>
    exact (modifyingHandler_eq_fault fun v t => (frame v t).mem).mpr (hfetch mode hmode)
  | jump => rw [execJmp, resolve_of_second_unreadable rfl h, andThen_fault]
  | unimplemented hi => simp [hi] at hexec
  | unsupported b hi => simp [hi, Instr.executable] at hexec

end Sys2Proof.Machine
end

section
/-! SUPPORT. `CYC`, `BASE_CYCLES` and `INTERRUPT_PERIOD` are read by no decision (R159): making `CYC` zero is an erasure that no step
tells apart, on any two machines of one capacity. -/

namespace Sys2Proof.Machine

/-- A state without its cycle budget. -/
def eraseCyc (t : State) : State := { t with cyc := 0 }

variable {P Q : Params} {s t : State}

theorem eraseCyc_eq_iff : eraseCyc s = eraseCyc t ↔ ∃ c, t = { s with cyc := c } := by
  constructor
  · intro h
    refine ⟨t.cyc, ?_⟩
    cases s; cases t
    simp_all [eraseCyc]
  · rintro ⟨c, rfl⟩
    rfl

/-- The penalty, the base cycles of `Finish` and of JMP, and a data read's fault write `CYC` alone from it. -/
theorem erasesUnused_eraseCyc (hcap : P.capacity = Q.capacity) : ErasesUnused P Q eraseCyc := by
  constructor
  case' toErasesUnread => constructor
  case capacity => exact hcap
  all_goals
    intros
    rename_i h
    obtain ⟨c, rfl⟩ := eraseCyc_eq_iff.mp h
    simp [eraseCyc, chargePenalty, afterDataFault_eq, finish]

/-- Two states that differ in nothing but `CYC` take the same step, but for it. -/
theorem stepAt_eraseCyc (hcap : P.capacity = Q.capacity) (h : eraseCyc s = eraseCyc t) :
    mapOutcome eraseCyc (stepAt P s) = mapOutcome eraseCyc (stepAt Q t) := by
  rw [mapOutcome_eq_mapOn]
  refine stepAt_erased (erasesUnused_eraseCyc hcap) h (fun op h => ?fetched) (fun h => ?replenished)
  all_goals
    obtain ⟨c, rfl⟩ := eraseCyc_eq_iff.mp h
    simp [eraseCyc, replenish_eq]

end Sys2Proof.Machine
end

section
/-! PROOFS. The statements of 70_reset_and_hazards.md: the top of memory, the charge of a step, what `CYC` influences, and program
loading. -/

namespace Sys2Proof

open Sys2Proof.Machine

/-- Settles O51: from 0xFFFE the high operand byte is at the capacity; from 0xFFFF `PC` wraps to 0 and both operand bytes are
there. -/
theorem threeByteInstructionAtTheTopOfMemory : Obligations.ThreeByteInstructionAtTheTopOfMemory := by
  intro P s op hcap hread hlen
  refine ⟨fun hpc => ?faults, fun hpc hstays => ?completes⟩
  case faults =>
    have hfault := execAt_of_second_unreadable (s := { s with curOp := op, pc := 0xFFFF }) hlen hcap
    refine stepAt_eq_fault.mpr (.inr ⟨op, hread, ?_⟩)
    rw [hpc]
    exact hfault
  case completes =>
    have hoperand : s.pc + 1 ≠ 0xFFFF := by rw [hpc]; decide
    obtain ⟨u, hu⟩ := execAt_completes (s := { s with curOp := op, pc := s.pc + 1 }) hcap.ge
      (executable_of_length_eq_three hlen) fun _ => hoperand
    refine ⟨_, stepAt_eq_next.mpr ⟨op, u, hread, hu, rfl⟩, ?_⟩
    rw [replenish_pc, execAt_pc hstays hu, hlen, hpc]
    rfl

/-- Settles O56: the charge of a step, and the bounds of its two parts. -/
theorem stepChargesTwoToEightCycles : Obligations.StepChargesTwoToEightCycles := by
  intro P s t h
  obtain ⟨op, extra, hread, hexec, hle, hrel, hcyc⟩ := stepAt_charge h
  refine ⟨op, extra, hread, hle, hrel, hcyc, fun hbase => ?_⟩
  have hbounds := baseCycles_add_extra_bounds hexec hle hrel
  have hdefault : P.baseCycles op = (decodeOpcode op).baseCycles := congrFun hbase op
  omega

/-- Settles O58: erasing `CYC` is an erasure that no step tells apart. -/
theorem cycInfluencesNothingElse : Obligations.CycInfluencesNothingElse :=
  fun _ _ s c hcap => stepAt_eraseCyc (s := { s with cyc := c }) (t := s) hcap rfl

/-- Settles O9, by the two answers of the load. -/
theorem loadProgramLoadsThenSetsPc : Obligations.LoadProgramLoadsThenSetsPc :=
  fun _ _ _ _ _ _ => ⟨fun h => by rw [loadProgram, h, andThen_next],
    fun h => loadProgram_eq_fault.mpr ⟨Memory.load_eq_none.mpr h, rfl⟩⟩

end Sys2Proof
end
